-- ==== Sys2Proof/Word.lean ====
section
/-! DEFINITION. The two word types of the hardware: a byte of the Program Image (00_scope.md R7: "A byte is 8
bits") and an opcode (10_state.md R11: "An opcode is 7 bits wide"). Everything that reads or builds bit fields and
byte sequences is in Decode.lean and Machine/Ops.lean. -/

namespace Sys2Proof

/-- One byte of the Program Image (00_scope.md R7). -/
abbrev Byte := BitVec 8

/-- One opcode, 7 bits wide (10_state.md R11). -/
abbrev Opcode := BitVec 7

end Sys2Proof
end

