-- ==== Sys2Proof/Syntax.lean ====
section
/-! DEFINITION. The records and the instructions: the operation names and formats (10_state.md R9, R12), the Symbolic
Instruction that the driver presents (R14), the Intermediate Instruction between ENC and PACK (R17), and `Instr`, one
constructor per row of spec/opcode_table.json. -/

namespace Sys2Proof

/-- The four operations of the Operation Table (10_state.md R9). -/
inductive Op where
  | load
  | read
  | write
  | rol
deriving DecidableEq, Repr

/-- The two instruction formats (10_state.md R12). -/
inductive Format where
  | load
  | short
deriving DecidableEq, Repr

/-- The two operand fields of a Symbolic Instruction (10_state.md R14). -/
inductive Field where
  | const
  | addr
deriving DecidableEq, Repr

/-- A Symbolic Instruction as the core receives it (10_state.md R14): "`op`, a character string; `const`, absent or an
integer; `addr`, absent or an integer". -/
structure SymInstr where
  op : String
  const : Option Int := none
  addr : Option Int := none
deriving DecidableEq, Repr

/-- An Intermediate Instruction (10_state.md R17). The three fields are integers, so that the hand-built records of
41_packer.md R71 ("a negative field" among them) can be written (log entry 18). -/
structure IR where
  opcode : Int
  operand : Int
  byteWidth : Int
deriving DecidableEq, Repr

/-- An instruction whose name is in the Operation Table: one constructor per row of spec/opcode_table.json, each with BOTH
operand fields of the presented record (10_state.md R14; the one its format does not name is ignored, 40_encoder.md R60). -/
inductive Instr where
  /-- `load` (40_encoder.md R56). -/
  | load (const addr : Option Int)
  /-- `read` (40_encoder.md R57). -/
  | read (const addr : Option Int)
  /-- `write` (40_encoder.md R58). -/
  | write (const addr : Option Int)
  /-- `rol` (40_encoder.md R59). -/
  | rol (const addr : Option Int)
deriving DecidableEq, Repr

/-- One row of the Operation Table (10_state.md R9). -/
structure OpRow where
  op : Op
  name : String
  opcode : Opcode
deriving DecidableEq, Repr

/-- One row of the encoding map (30_encoding.md R43): the word of an instruction, read as one little-endian integer `W`,
is this row's exactly when `W & mask = pattern`. -/
structure EncRow where
  op : Op
  bytes : Nat
  mask : Nat
  pattern : Nat
deriving DecidableEq, Repr

end Sys2Proof
end

