-- ==== Sys2Proof/Machine/State.lean ====
section
/-! DEFINITION. The state of the machine as plain data, the reasons a step can stop, and the state after reset. The
registers are ASM's (10_state.md R20 to R22); ENC and PACK have none (R16); there is no memory (20_memory.md R25, log
entry 19). Beside the registers stand the outputs (R23, 70_reset_and_hazards.md R101) and what the driver presents
(R15, 42_assembly.md R83), in fields of the model's own (log entries 1, 5, 6). -/

namespace Sys2Proof.Machine

/-- The three values of `status` (10_state.md R22). -/
inductive Status where
  /-- RUN: accepting instructions. -/
  | run
  /-- DONE: the driver signalled the end of the program and no error occurred. -/
  | done
  /-- ABORTED: an error occurred; the image is void. -/
  | aborted
deriving DecidableEq, Repr

/-- The four errors and their payloads, a closed list (60_exceptions.md R85, R90). They are no faults of the model: taking
one is a next state (R93). -/
inductive AsmError where
  /-- `err_name`: the operation name as presented (R86). -/
  | unknownOperation (name : String)
  /-- `err_value`, `err_field`, `err_bits` (R87). -/
  | operandOutOfRange (value : Int) (field : Field) (bits : Nat)
  /-- `err_width`: the offending `byteWidth` (R88). -/
  | invalidInstructionSize (width : Int)
  /-- `err_field`: the absent field (R89). -/
  | missingOperand (field : Field)
deriving DecidableEq, Repr

/-- The error record `err` (10_state.md R22): code 0 or one of the four errors (60_exceptions.md R85). -/
inductive ErrRecord where
  /-- Code 0, "no error". -/
  | noError
  /-- An error with its payload. -/
  | error (e : AsmError)
deriving DecidableEq, Repr

/-- What ENC answers: an IR or an error, never both (40_encoder.md R49). -/
inductive EncResult where
  | ok (ir : IR)
  | error (e : AsmError)
deriving DecidableEq, Repr

/-- What PACK answers: the bytes, the error, or the refusal of 41_packer.md R71 ("no output and no error"). -/
inductive PackResult where
  | ok (bytes : List Byte)
  | error (e : AsmError)
  | refused
deriving DecidableEq, Repr

/-- What a test bench got from one block used alone (42_assembly.md R83, 40_encoder.md R61). -/
inductive BenchResult where
  | encoded (r : EncResult)
  | packed (bytes : List Byte)
  | packFailed (e : AsmError)
deriving DecidableEq, Repr

/-- A run that a reset has ended: the bytes it emitted, which "stay emitted", and "the status at the moment before reset"
(70_reset_and_hazards.md R101). -/
structure RunRecord where
  bytes : List Byte
  status : Status
deriving DecidableEq, Repr

/-- What the outside world can present, one item a step (10_state.md R15, 42_assembly.md R83). -/
inductive Event where
  /-- The driver presents one Symbolic Instruction (R83). -/
  | instr (i : SymInstr)
  /-- The driver marks the end of the program (42_assembly.md R81). -/
  | endProgram
  /-- The reset input (70_reset_and_hazards.md R101). -/
  | reset
  /-- A test bench uses ENC alone (40_encoder.md R61, 70_reset_and_hazards.md R102). -/
  | benchEnc (i : SymInstr)
  /-- A test bench presents a hand-built IR to PACK (42_assembly.md R83, last row). -/
  | benchPack (ir : IR)
deriving DecidableEq, Repr

/-- The state of the machine. -/
structure State where
  /-- The position counter (10_state.md R20), unbounded as 42_assembly.md R84 allows (log entry 4). -/
  pos : Nat
  /-- The image byte-offset counter (10_state.md R21), unbounded likewise. -/
  off : Nat
  /-- The status field (10_state.md R22). -/
  status : Status
  /-- The error record (10_state.md R22), meaningful only while `status` is ABORTED. -/
  err : ErrRecord
  /-- The bytes emitted since reset, in order: "the history of `emit` events" (10_state.md R23). -/
  emitted : List Byte
  /-- The runs that earlier resets ended, oldest first (70_reset_and_hazards.md R101; log entry 5). -/
  past : List RunRecord
  /-- What is presented at each coming step, the next one first (42_assembly.md R83; log entry 1). -/
  input : List Event
  /-- The answers of ENC alone and PACK alone, oldest first (42_assembly.md R83; log entry 6). -/
  bench : List BenchResult
deriving DecidableEq, Repr

/-- The faults of the machine: none. Every exceptional event of the hardware is one of the four errors of 60_exceptions.md
R85, and taking one is a next state (R93); "no other condition makes the core fail" (R90). Safe: nothing raises a fault
(log entry 16). -/
inductive Fault where
deriving DecidableEq, Repr

/-- Why the model gives an input no meaning. -/
inductive Refusal where
  /-- An instruction without a meaning yet; raised by an arm of `exec` only. Safe. No arm raises it. -/
  | notModelled (mnemonic : String)
  /-- PACK alone was presented an IR with `byteWidth` 3 or 4 that breaks WF_IR (41_packer.md R71: "A model refuses it"). Raised
  by the step that takes the test bench's event, and by nothing else. Safe (log entry 7). -/
  | illFormedIR
  /-- A step of the sequencer with bounded counters would pass a counter's limit (42_assembly.md R84). Raised by
  `stepBounded` only, never by `step`. Safe (log entry 4). -/
  | counterLimit
deriving DecidableEq, Repr

/-- The machine right after reset (10_state.md R24, 70_reset_and_hazards.md R100): `pos = 0`, `off = 0`, `status = RUN`,
nothing emitted. The spec leaves `err` unspecified: `noError` is a DESIGN CHOICE (log entry 3). -/
def State.reset : State :=
  { pos := 0, off := 0, status := .run, err := .noError, emitted := [], past := [], input := [], bench := [] }

end Sys2Proof.Machine
end

