-- ==== Sys2Proof/Machine/Flags.lean ====
section
/-! DEFINITION. The hardware has no condition codes ("Flags written: none" in every instruction rule, 10_state.md R22). What
plays their part is ASM's status field and the numeric code of the error record (60_exceptions.md R85). -/

namespace Sys2Proof.Machine

/-- A step of ASM is enabled only when `status = RUN` (42_assembly.md R79). -/
def State.enabled (s : State) : Bool :=
  decide (s.status = .run)

/-- `err_code` of an error (60_exceptions.md R85). -/
def errCode : AsmError → Nat
  | .unknownOperation _ => 1
  | .operandOutOfRange _ _ _ => 2
  | .invalidInstructionSize _ => 3
  | .missingOperand _ => 4

/-- `err_code` of the error record, 0 for no error (60_exceptions.md R85). -/
def errRecordCode : ErrRecord → Nat
  | .noError => 0
  | .error e => errCode e

end Sys2Proof.Machine
end

