-- ==== Sys2Proof/WellFormed.lean ====
section
/-! DEFINITION. Which instructions are valid (30_encoding.md R46, 10_state.md R14): the operand field that the operation
requires is present and in its range. An instruction that is not well-formed can still be presented, and the meanings
say what happens then (90_conflicts.md C7). -/

namespace Sys2Proof

/-- `const` of a valid `load`: present, "0 ≤ const ≤ 8,388,607 (0x7FFFFF)" (30_encoding.md R46). -/
def constValid : Option Int → Bool
  | none => false
  | some c => decide (0 ≤ c) && decide (c ≤ 0x7FFFFF)

/-- `addr` of a valid `read`, `write` or `rol`: present, "0 ≤ addr ≤ 65,535 (0xFFFF)" (30_encoding.md R46). -/
def addrValid : Option Int → Bool
  | none => false
  | some a => decide (0 ≤ a) && decide (a ≤ 0xFFFF)

/-- The instruction is valid (30_encoding.md R46). The field the operation does not use is not looked at ("required iff"). -/
def Instr.wellFormed : Instr → Bool
  | .load c _ => constValid c
  | .read _ a => addrValid a
  | .write _ a => addrValid a
  | .rol _ a => addrValid a

/-- The field that the operation does not use is absent: the form in which an encoded instruction, which has no place for
that field, is read back. -/
def Instr.canonical : Instr → Bool
  | .load _ a => a.isNone
  | .read c _ => c.isNone
  | .write c _ => c.isNone
  | .rol c _ => c.isNone

/-- The instruction without the field its operation does not use (40_encoder.md R60: it changes nothing). -/
def Instr.dropUnused : Instr → Instr
  | .load c _ => .load c none
  | .read _ a => .read none a
  | .write _ a => .write none a
  | .rol _ a => .rol none a

end Sys2Proof
end

