-- ==== Sys2Proof/Decode.lean ====
section
/-! DEFINITION. Reading instructions. (1) The symbolic side, which is the hardware's: the Operation Table and the lookup of
a presented record's name (10_state.md R9, 40_encoder.md R50). (2) The bit side, which the spec gives as an oracle and not
as hardware (log entry 15): the encoding map (30_encoding.md R43), a decoder from bytes (R44, R45), the unpacking of R48,
the parse of an image (R44). (3) An encoder written from the byte tables of R39 and R40, independent of PACK's shift. -/

namespace Sys2Proof

/-! ### The Operation Table -/

/-- The Operation Table, its four rows in the spec's order (10_state.md R9). -/
def opTable : List OpRow :=
  [ { op := .load, name := "load", opcode := 31 },
    { op := .read, name := "read", opcode := 121 },
    { op := .write, name := "write", opcode := 26 },
    { op := .rol, name := "rol", opcode := 8 } ]

/-- The row whose name is this sequence of characters, if any: exact equality (10_state.md R9). -/
def opRow (name : String) : Option OpRow :=
  opTable.find? (fun r => decide (r.name = name))

/-- `OpTable(name)`: the opcode of the row, or `none` (10_state.md R9). -/
def opTableLookup (name : String) : Option Opcode :=
  (opRow name).map (fun r => r.opcode)

/-- The name of an operation (10_state.md R9, first column). -/
def opName : Op → String
  | .load => "load"
  | .read => "read"
  | .write => "write"
  | .rol => "rol"

/-- The instruction of an operation and the two operand fields. -/
def mkInstr : Op → Option Int → Option Int → Instr
  | .load, c, a => .load c a
  | .read, c, a => .read c a
  | .write, c, a => .write c a
  | .rol, c, a => .rol c a

/-- The operation of an instruction. -/
def Instr.op : Instr → Op
  | .load _ _ => .load
  | .read _ _ => .read
  | .write _ _ => .write
  | .rol _ _ => .rol

/-- The record that presents an instruction (10_state.md R14). -/
def Instr.toSym : Instr → SymInstr
  | .load c a => { op := opName .load, const := c, addr := a }
  | .read c a => { op := opName .read, const := c, addr := a }
  | .write c a => { op := opName .write, const := c, addr := a }
  | .rol c a => { op := opName .rol, const := c, addr := a }

/-- The instruction a presented record stands for, if its name is in the Operation Table. Only `op` decides
(40_encoder.md R50: "Lookup reads only `op`"). -/
def instrOf (s : SymInstr) : Option Instr :=
  (opRow s.op).map (fun r => mkInstr r.op s.const s.addr)

/-! ### Bytes and integers, least-significant byte first (20_memory.md R27) -/

/-- The little-endian integer that a byte sequence holds (30_encoding.md R48, first line of `unpack`). -/
def leValue : List Byte → Nat
  | [] => 0
  | b :: bs => b.toNat + 256 * leValue bs

/-- The first `n` bytes of an integer, least-significant first (20_memory.md R27). -/
def leBytes : Nat → Nat → List Byte
  | 0, _ => []
  | n + 1, w => BitVec.ofNat 8 w :: leBytes n (w / 256)

/-! ### The encoding map and the decoder -/

/-- The complete encoding map (30_encoding.md R43). -/
def encTable : List EncRow :=
  [ { op := .load, bytes := 4, mask := 0xC000007F, pattern := 0x0000001F },
    { op := .read, bytes := 3, mask := 0x80007F, pattern := 0x000079 },
    { op := .write, bytes := 3, mask := 0x80007F, pattern := 0x00001A },
    { op := .rol, bytes := 3, mask := 0x80007F, pattern := 0x000008 } ]

/-- Why a byte sequence does not begin with an instruction the core produces. -/
inductive DecodeError where
  /-- The bytes end before the instruction does. -/
  | truncated
  /-- The low 7 bits of the first byte are none of the four opcodes (30_encoding.md R45, first item). -/
  | unknownOpcode (opcode : Nat)
  /-- Bits 31:30 of a 4-byte instruction or bit 23 of a 3-byte one are not zero (30_encoding.md R45, items 2 and 3). -/
  | reservedBitsSet (op : Op)
deriving DecidableEq, Repr

/-- What decoding the head of a byte sequence gives: an instruction and the bytes after it, or a refusal by name. -/
inductive DecodeResult where
  | instr (i : Instr) (rest : List Byte)
  | refused (why : DecodeError)
deriving DecidableEq, Repr

/-- The row of the encoding map for an opcode field (30_encoding.md R44). -/
def encRow (opcode : Nat) : Option EncRow :=
  encTable.find? (fun r => decide (r.pattern % 128 = opcode))

/-- The instruction of a row with this operand: the field the format names holds it, the other is absent. -/
def mkDecoded : Op → Nat → Instr
  | .load, v => .load (some (v : Int)) none
  | .read, v => .read none (some (v : Int))
  | .write, v => .write none (some (v : Int))
  | .rol, v => .rol none (some (v : Int))

/-- Decode the instruction at the head of a byte sequence: the first byte's low 7 bits give the length
(30_encoding.md R44), the map's mask and pattern decide (R43), the bits above the opcode are the operand (R48). Total;
patterns the core never produces are refused by name (R45: "a model must not give them a meaning"). -/
def decode (bs : List Byte) : DecodeResult :=
  match bs with
  | [] => .refused .truncated
  | b0 :: _ =>
    match encRow (b0.toNat % 128) with
    | none => .refused (.unknownOpcode (b0.toNat % 128))
    | some row =>
      if bs.length < row.bytes then .refused .truncated
      else if leValue (bs.take row.bytes) &&& row.mask = row.pattern then
        .instr (mkDecoded row.op (leValue (bs.take row.bytes) >>> 7)) (bs.drop row.bytes)
      else .refused (.reservedBitsSet row.op)

/-- The parse of a whole image from offset 0 (30_encoding.md R44), `fuel` bounding the instructions read. -/
def parseFuel : Nat → List Byte → Option (List Instr)
  | _, [] => some []
  | 0, _ :: _ => none
  | n + 1, b :: bs =>
    match decode (b :: bs) with
    | .refused _ => none
    | .instr i rest => (parseFuel n rest).map (fun is => i :: is)

/-- The instructions of an image, or `none` where the bytes are no image (30_encoding.md R44). Every instruction has at
least one byte, so the image's length is fuel enough. -/
def parseImage (bs : List Byte) : Option (List Instr) :=
  parseFuel bs.length bs

/-- The unpacking oracle, "for a byte sequence `b[0..n-1]`" (30_encoding.md R48): opcode and operand. -/
def unpack (bs : List Byte) : Nat × Nat :=
  (leValue bs &&& 0x7F, leValue bs >>> 7)

/-! ### The encoder, from the byte tables -/

/-- The four bytes of a Load-format instruction (30_encoding.md R39): `byte0 = {c[0], o[6:0]}`, `byte1 = c[8:1]`,
`byte2 = c[16:9]`, `byte3 = {00, c[22:17]}`. -/
def loadBytes (o : Opcode) (c : BitVec 23) : List Byte :=
  [ c.extractLsb' 0 1 ++ o, c.extractLsb' 1 8, c.extractLsb' 9 8, 0#2 ++ c.extractLsb' 17 6 ]

/-- The three bytes of a Short-format instruction (30_encoding.md R40): `byte0 = {a[0], o[6:0]}`, `byte1 = a[8:1]`,
`byte2 = {0, a[15:9]}`. -/
def shortBytes (o : Opcode) (a : BitVec 16) : List Byte :=
  [ a.extractLsb' 0 1 ++ o, a.extractLsb' 1 8, 0#1 ++ a.extractLsb' 9 7 ]

/-- The bytes of a well-formed instruction, from the tables of 30_encoding.md R39, R40 and R43. On an instruction that is
not well-formed the value means nothing (the core emits no byte for one). -/
def encode : Instr → List Byte
  | .load c _ => loadBytes 31 (BitVec.ofInt 23 (c.getD 0))
  | .read _ a => shortBytes 121 (BitVec.ofInt 16 (a.getD 0))
  | .write _ a => shortBytes 26 (BitVec.ofInt 16 (a.getD 0))
  | .rol _ a => shortBytes 8 (BitVec.ofInt 16 (a.getD 0))

/-! ### The host's reading of a table word -/

/-- The instruction the decoder reads from a word of `nbits` bits `w`, numbered as spec/opcode_table.json numbers them. The
word is laid out least-significant byte first, in its `nbits / 8` bytes. Every row of the table gives all the bits of its
instruction, so a word is an instruction only when it has exactly that instruction's bytes: `none` where the decoder refuses
(opcode 31 in 24 bits among them) and where bytes are left over (opcode 121, 26 or 8 in 32 bits): 30_encoding.md R45, last
item (log entry 14). -/
def decodeTableWord (nbits w : Nat) : Option Instr :=
  match decode (leBytes (nbits / 8) w) with
  | .refused _ => none
  | .instr i rest => if rest = [] ∧ nbits % 8 = 0 then some i else none

end Sys2Proof
end

