-- ==== Sys2Proof/Machine/Operands.lean ====
section
/-! DEFINITION. The Format Table and ENC's second and third stages: format select, operand field select and presence,
range validation (10_state.md R12, R13; 40_encoder.md R51 to R53). -/

namespace Sys2Proof.Machine

/-! ### The Format Table (10_state.md R12) -/

/-- The operand field of a format. -/
def fieldOf : Format → Field
  | .load => .const
  | .short => .addr

/-- The operand's bit width. -/
def opBits : Format → Nat
  | .load => 23
  | .short => 16

/-- The greatest operand. -/
def maxOperand : Format → Int
  | .load => 0x7FFFFF
  | .short => 0xFFFF

/-- The serialized size in bytes. -/
def formatBytes : Format → Nat
  | .load => 4
  | .short => 3

/-- The format of an operation (10_state.md R13, 40_encoder.md R51): the operation decides, and nothing else. -/
def formatOfOp : Op → Format
  | .load => .load
  | .read => .short
  | .write => .short
  | .rol => .short

/-- `formatOf(name)`, undefined (`none`) on a name outside the Operation Table (10_state.md R13). -/
def formatOf (name : String) : Option Format :=
  (opRow name).map (fun r => formatOfOp r.op)

/-! ### Operand select, presence and range -/

/-- The content of the one field that ENC reads (40_encoder.md R52: "that field and only that field"). -/
def selectField (fld : Field) (const addr : Option Int) : Option Int :=
  match fld with
  | .const => const
  | .addr => addr

/-- `0 <= v <= maxOperand(f)` (40_encoder.md R53), on signed integers. -/
def inRange (f : Format) (v : Int) : Bool :=
  decide (0 ≤ v) && decide (v ≤ maxOperand f)

/-- Presence, then range, then the result (40_encoder.md R52 to R55), for an opcode and a format. -/
def encodeOperand (opcode : Opcode) (f : Format) (const addr : Option Int) : EncResult :=
  match selectField (fieldOf f) const addr with
  | none => .error (.missingOperand (fieldOf f))
  | some v =>
    if inRange f v then .ok { opcode := (opcode.toNat : Int), operand := v, byteWidth := (formatBytes f : Int) }
    else .error (.operandOutOfRange v (fieldOf f) (opBits f))

/-! ### The invariant of an Intermediate Instruction (10_state.md R17) -/

/-- `WF_IR(ir)`: the conjunction of 10_state.md R17. -/
def wfIR (ir : IR) : Bool :=
  decide (0 ≤ ir.opcode) && decide (ir.opcode ≤ 127) && decide (0 ≤ ir.operand) &&
    ((decide (ir.byteWidth = 3) && decide (ir.operand ≤ 0xFFFF)) ||
      (decide (ir.byteWidth = 4) && decide (ir.operand ≤ 0x7FFFFF)))

end Sys2Proof.Machine
end

