-- ==== Sys2Proof/Machine/Ops.lean ====
section
/-! DEFINITION. The shared operations: the named updates of the state, ENC (40_encoder.md R49), PACK (41_packer.md R63), taking an error
(60_exceptions.md R93), reset, which is the only way back from one (R96, 70_reset_and_hazards.md R101), the sequencer's step
on ENC's answer (42_assembly.md R79), the `end` event (R81), and the blocks used alone (R83). -/

namespace Sys2Proof.Machine

/-! ### The named updates of the state -/

/-- The state with another schedule of presentations. -/
def State.withInput (s : State) (input : List Event) : State :=
  { s with input := input }

/-- The state with the registers that taking an error writes (60_exceptions.md R93). -/
def State.withError (s : State) (e : AsmError) : State :=
  { s with status := .aborted, err := .error e }

/-- The state after the bytes of one instruction have been emitted (42_assembly.md R79, last three lines). -/
def State.withEmitted (s : State) (bytes : List Byte) (byteWidth : Nat) : State :=
  { s with emitted := s.emitted ++ bytes, off := s.off + byteWidth, pos := s.pos + 1 }

/-- The state with another status. -/
def State.withStatus (s : State) (status : Status) : State :=
  { s with status := status }

/-- The state with one more answer to the test bench. -/
def State.withBench (s : State) (r : BenchResult) : State :=
  { s with bench := s.bench ++ [r] }

/-! ### ENC -/

/-- ENC on any Symbolic Instruction: lookup, format select, presence, range, in that order (40_encoder.md R49, R54). -/
def enc (i : SymInstr) : EncResult :=
  match opTableLookup i.op, formatOf i.op with
  | some o, some f => encodeOperand o f i.const i.addr
  | _, _ => .error (.unknownOperation i.op)

/-! ### PACK -/

/-- `value = (operand << 7) | opcode`, an unbounded unsigned integer (41_packer.md R65). -/
def packValue (operand opcode : Nat) : Nat :=
  (operand <<< 7) ||| opcode

/-- Byte `k` of a value: `floor(value / 256^k) mod 256` (41_packer.md R67). -/
def valueByte (value k : Nat) : Byte :=
  BitVec.ofNat 8 (value / 256 ^ k)

/-- The `n` bytes of a value, least-significant first (41_packer.md R67). -/
def serialize (value n : Nat) : List Byte :=
  (List.range n).map (valueByte value)

/-- PACK on any IR (41_packer.md R63): the size check comes first (R64); an IR with a legal `byteWidth` that breaks WF_IR is
refused (R71); else value and bytes (R65, R67). -/
def pack (ir : IR) : PackResult :=
  if ir.byteWidth ≠ 3 ∧ ir.byteWidth ≠ 4 then .error (.invalidInstructionSize ir.byteWidth)
  else if wfIR ir then .ok (serialize (packValue ir.operand.toNat ir.opcode.toNat) ir.byteWidth.toNat)
  else .refused

/-! ### Taking an error, and reset -/

/-- Taking an error (60_exceptions.md R93): `status <- ABORTED`, `err <- E`; `pos` and `off` stay, nothing is emitted, nothing
else is saved, control goes nowhere. -/
def takeError (e : AsmError) (s : State) : State :=
  s.withError e

/-- The reset input (70_reset_and_hazards.md R101), the only way out of ABORTED and DONE (60_exceptions.md R96): ASM in the state
of R100. The bytes already emitted leave the current run's history for `past`, with the status of the moment before; what is
still to be presented and the bench's answers are the outside world's. -/
def applyReset (s : State) : State :=
  { State.reset with
    past := s.past ++ [{ bytes := s.emitted, status := s.status }]
    input := s.input
    bench := s.bench }

/-! ### The sequencer -/

/-- One step of ASM on ENC's answer for the presented instruction (42_assembly.md R79). No step is enabled in DONE or ABORTED:
the instruction "is not consumed and changes nothing" (R81). -/
def asmStep (r : EncResult) (s : State) : Host.Outcome State Fault Refusal :=
  if s.enabled then
    match r with
    | .error e => .next (takeError e s)
    | .ok ir =>
      match pack ir with
      | .error e => .next (takeError e s)
      | .refused => .refused .illFormedIR
      | .ok bytes => .next (s.withEmitted bytes ir.byteWidth.toNat)
  else .next s

/-- The `end` event (42_assembly.md R81): RUN goes to DONE and nothing is emitted; otherwise nothing changes. -/
def applyEnd (s : State) : State :=
  if s.enabled then s.withStatus .done else s

/-! ### The blocks used alone -/

/-- ENC alone (40_encoder.md R61): its answer goes to the test bench, whatever ASM's status; ASM is not touched. -/
def benchEnc (i : SymInstr) (s : State) : State :=
  s.withBench (.encoded (enc i))

/-- PACK alone on a hand-built IR (42_assembly.md R83; 41_packer.md R63, R64, R71). -/
def benchPack (ir : IR) (s : State) : Host.Outcome State Fault Refusal :=
  match pack ir with
  | .ok bytes => .next (s.withBench (.packed bytes))
  | .error e => .next (s.withBench (.packFailed e))
  | .refused => .refused .illFormedIR

/-! ### What a run has produced -/

/-- The observable result of a run (42_assembly.md R80). -/
inductive RunResult where
  /-- `Ok(bytes emitted)`. -/
  | ok (image : List Byte)
  /-- `Error(pos, err)`. -/
  | error (pos : Nat) (err : ErrRecord)
deriving DecidableEq, Repr

/-- The result of the current run, `none` while it is not over (42_assembly.md R80, R81). -/
def State.result (s : State) : Option RunResult :=
  match s.status with
  | .run => none
  | .done => some (.ok s.emitted)
  | .aborted => some (.error s.pos s.err)

end Sys2Proof.Machine
end

