-- ==== Sys2Proof/Machine/Load.lean ====
section
/-! DEFINITION. The Load-format instruction, `load` (40_encoder.md R56, 41_packer.md R68). -/

namespace Sys2Proof.Machine

/-- ENC on `load` (40_encoder.md R56): field `const`, 23 bits, opcode 31, 4 bytes; `addr` is not read (R60). -/
def encLoad (const addr : Option Int) : EncResult :=
  encodeOperand 31 .load const addr

/-- `load` presented to ASM (40_encoder.md R56, 41_packer.md R68, 42_assembly.md R79). -/
def execLoad (const addr : Option Int) (s : State) : Host.Outcome State Fault Refusal :=
  asmStep (encLoad const addr) s

end Sys2Proof.Machine
end

