-- ==== Sys2Proof/Machine/Short.lean ====
section
/-! DEFINITION. The Short-format instructions, `read`, `write` and `rol` (40_encoder.md R57 to R59, 41_packer.md R69). -/

namespace Sys2Proof.Machine

/-- ENC on `read` (40_encoder.md R57): field `addr`, 16 bits, opcode 121, 3 bytes; `const` is not read (R60). -/
def encRead (const addr : Option Int) : EncResult :=
  encodeOperand 121 .short const addr

/-- ENC on `write` (40_encoder.md R58): field `addr`, 16 bits, opcode 26, 3 bytes; `const` is not read (R60). -/
def encWrite (const addr : Option Int) : EncResult :=
  encodeOperand 26 .short const addr

/-- ENC on `rol` (40_encoder.md R59): field `addr`, 16 bits, opcode 8, 3 bytes; `const` is not read (R60). -/
def encRol (const addr : Option Int) : EncResult :=
  encodeOperand 8 .short const addr

/-- `read` presented to ASM (40_encoder.md R57, 41_packer.md R69, 42_assembly.md R79). -/
def execRead (const addr : Option Int) (s : State) : Host.Outcome State Fault Refusal :=
  asmStep (encRead const addr) s

/-- `write` presented to ASM (40_encoder.md R58, 41_packer.md R69, 42_assembly.md R79). -/
def execWrite (const addr : Option Int) (s : State) : Host.Outcome State Fault Refusal :=
  asmStep (encWrite const addr) s

/-- `rol` presented to ASM (40_encoder.md R59, 41_packer.md R69, 42_assembly.md R79). -/
def execRol (const addr : Option Int) (s : State) : Host.Outcome State Fault Refusal :=
  asmStep (encRol const addr) s

end Sys2Proof.Machine
end

