-- ==== Sys2Proof/Machine/Dispatch.lean ====
section
/-! DEFINITION. One arm per instruction: the meaning of each is in Machine/Load.lean and Machine/Short.lean. -/

namespace Sys2Proof.Machine

/-- What presenting an instruction of the table does (42_assembly.md R79). -/
def exec (i : Instr) (s : State) : Host.Outcome State Fault Refusal :=
  match i with
  | .load c a => Sys2Proof.Machine.execLoad c a s
  | .read c a => Sys2Proof.Machine.execRead c a s
  | .write c a => Sys2Proof.Machine.execWrite c a s
  | .rol c a => Sys2Proof.Machine.execRol c a s

end Sys2Proof.Machine
end

