-- ==== Sys2Proof/Machine/Present.lean ====
section
/-! DEFINITION. What each item that the outside world can present does (10_state.md R15, 42_assembly.md R83). -/

namespace Sys2Proof.Machine

/-- The effect of one presented item. An instruction's name is looked up first; a name outside the table takes
`UnknownOperation` (40_encoder.md R50). -/
def present (e : Event) (s : State) : Host.Outcome State Fault Refusal :=
  match e with
  | .instr i =>
    match instrOf i with
    | some ins => exec ins s
    | none => asmStep (.error (.unknownOperation i.op)) s
  | .endProgram => .next (applyEnd s)
  | .reset => .next (applyReset s)
  | .benchEnc i => .next (benchEnc i s)
  | .benchPack ir => benchPack ir s

end Sys2Proof.Machine
end

