-- ==== Sys2Proof/Machine/Step.lean ====
section
/-! DEFINITION. One step of the machine: it takes the next item of the driver's schedule (42_assembly.md R83). -/

namespace Sys2Proof.Machine

/-- One step: the next presented item takes effect; where nothing is presented nothing changes (10_state.md R15,
60_exceptions.md R91: "Every state change of the core is caused by one of three synchronous inputs"). -/
def step (s : State) : Host.Outcome State Fault Refusal :=
  match s.input with
  | [] => .next s
  | e :: rest => present e (s.withInput rest)

/-- `s` with the instruction of an opcode-table word presented next, in a status that accepts it, so that the very next step
runs it (log entry 13). A word that is no instruction leaves `s` as it is: the hardware receives records, not words. -/
def State.withFetchWord (s : State) (nbits w : Nat) : State :=
  match decodeTableWord nbits w with
  | some i => { s with status := .run, input := .instr i.toSym :: s.input }
  | none => s

end Sys2Proof.Machine
end

