-- ==== Sys2Proof/Config.lean ====
section
/-! DEFINITION. What the spec leaves to an implementation: the open parameters of 00_scope.md R5 with their defaults
and constraints; the port bundles whose widths those parameters are (10_state.md R18, R19; 60_exceptions.md R85); and
the free values, the don't-care ports of 93_implementation_defined.md U6, as constants without a body (log entry 9).
No record-level definition of the model reads anything of this file but through Machine/Ports.lean, Machine/Counters.lean
and Machine/Assembly.lean's lanes. -/

namespace Sys2Proof

/-- The open parameters of 00_scope.md R5, by the spec's names. -/
structure Params where
  /-- NAME_BYTES: bytes of the operation-name port. -/
  nameBytes : Nat
  /-- OPW: bits of each signed operand input port. -/
  opw : Nat
  /-- BWW: bits of the unsigned `byteWidth` port between ENC and PACK. -/
  bww : Nat
  /-- POSW: bits of the position counter of ASM. -/
  posw : Nat
  /-- OFFW: bits of the image byte-offset counter of ASM. -/
  offw : Nat
  /-- N_LANES: ENC and PACK pairs working in parallel. -/
  nLanes : Nat
deriving DecidableEq, Repr

/-- The defaults of 00_scope.md R5. -/
def Params.default : Params :=
  { nameBytes := 8, opw := 32, bww := 3, posw := 32, offw := 32, nLanes := 1 }

/-- The constraints of 00_scope.md R5. -/
abbrev Params.Valid (p : Params) : Prop :=
  5 ≤ p.nameBytes ∧ 25 ≤ p.opw ∧ 3 ≤ p.bww ∧ 1 ≤ p.posw ∧ 3 ≤ p.offw ∧ 1 ≤ p.nLanes

/-- ENC's input ports (10_state.md R18). -/
structure EncIn (p : Params) where
  opName : BitVec (8 * p.nameBytes)
  constPresent : Bool
  constVal : BitVec p.opw
  addrPresent : Bool
  addrVal : BitVec p.opw
deriving DecidableEq, Repr

/-- ENC's output ports (10_state.md R19, 60_exceptions.md R85). The spec gives `err_bits` no width, so it is a plain number
(log entry 12). -/
structure EncOut (p : Params) where
  encOk : Bool
  irOpcode : BitVec 7
  irOperand : BitVec 23
  irByteWidth : BitVec p.bww
  errCode : BitVec 3
  errName : BitVec (8 * p.nameBytes)
  errValue : BitVec p.opw
  errField : BitVec 1
  errBits : Nat
deriving DecidableEq, Repr, Inhabited

/-- PACK's input ports: the record between ENC and PACK (10_state.md R19). -/
structure PackIn (p : Params) where
  irOpcode : BitVec 7
  irOperand : BitVec 23
  irByteWidth : BitVec p.bww
deriving DecidableEq, Repr

/-- PACK's output ports (10_state.md R19, 41_packer.md R73). -/
structure PackOut (p : Params) where
  packOk : Bool
  outNbytes : BitVec 3
  outByte0 : Byte
  outByte1 : Byte
  outByte2 : Byte
  outByte3 : Byte
  errCode : BitVec 3
  errWidth : BitVec p.bww
deriving DecidableEq, Repr, Inhabited

/-- The output ports of ENC followed by PACK on one instruction (10_state.md R19). -/
structure CoreOut (p : Params) where
  enc : EncOut p
  pack : PackOut p
  /-- The core's `err_code`: 0 when both blocks succeed, else the code of the block that failed. -/
  errCode : BitVec 3
deriving DecidableEq, Repr

/-- FREE VALUE (log entry 9): what ENC's output ports hold where 40_encoder.md R62 and 60_exceptions.md R85 give them no
meaning. A function of ENC's inputs, since "All ENC outputs are a combinational function of ENC's inputs". -/
opaque Config.encDontCare (p : Params) : EncIn p → EncOut p

/-- FREE VALUE (log entry 9): what PACK's output ports hold where 41_packer.md R73 gives them no meaning, PACK being used on
these inputs. -/
opaque Config.packDontCare (p : Params) : PackIn p → PackOut p

/-- FREE VALUE (log entry 9): what PACK's output ports hold when ENC has failed, so that PACK is not applied
(40_encoder.md R62). -/
opaque Config.packIdle (p : Params) : EncIn p → PackOut p

end Sys2Proof
end

