-- ==== Sys2Proof/Machine/Assembly.lean ====
section
/-! DEFINITION. Program assembly as the pure function the spec states (42_assembly.md R74 to R78), the two-phase order of the
driver's description (R83), and assembly by parallel lanes (R82). The sequencer of Machine/Step.lean must agree with the
function (R79); so must the other two. -/

namespace Sys2Proof.Machine

/-- `Ok(image)` or `Error(i, E)` (42_assembly.md R74). The third case stands for the refusal of 41_packer.md R71, which
"the composed core never presents". -/
inductive AsmResult where
  | ok (image : List Byte)
  | error (pos : Nat) (e : AsmError)
  | refused
deriving DecidableEq, Repr

/-- ENC then PACK on one instruction (42_assembly.md R74: "PACK is applied only to an IR that ENC returned"). -/
def assembleOne (i : SymInstr) : PackResult :=
  match enc i with
  | .error e => .error e
  | .ok ir => pack ir

/-- The loop of 42_assembly.md R74 from position `i` with the image so far. It stops at the first failure (R76), which has no
image (R77). -/
def assembleLoop (i : Nat) (image : List Byte) : List SymInstr → AsmResult
  | [] => .ok image
  | x :: xs =>
    match assembleOne x with
    | .error e => .error i e
    | .refused => .refused
    | .ok bytes => assembleLoop (i + 1) (image ++ bytes) xs

/-- `assemble(P)` (42_assembly.md R74). -/
def assemble (program : List SymInstr) : AsmResult :=
  assembleLoop 0 [] program

/-- The number of bytes of an instruction with this name: 4 for `load`, 3 for the other three (20_memory.md R29), 0 for a name
outside the table. -/
def widthOf (i : SymInstr) : Nat :=
  match formatOf i.op with
  | some f => formatBytes f
  | none => 0

/-- `start(i)`: the image offset at which instruction `i` starts (20_memory.md R29). -/
def startOffset (program : List SymInstr) (i : Nat) : Nat :=
  ((program.take i).map widthOf).sum

/-! ### All ENC, then all PACK (42_assembly.md R83, 90_conflicts.md C10) -/

/-- The first phase: the IRs of the instructions from position `i`, or the first ENC failure. -/
def encodeAll (i : Nat) : List SymInstr → List IR ⊕ (Nat × AsmError)
  | [] => .inl []
  | x :: xs =>
    match enc x with
    | .error e => .inr (i, e)
    | .ok ir =>
      match encodeAll (i + 1) xs with
      | .inl irs => .inl (ir :: irs)
      | .inr f => .inr f

/-- The second phase: the image of the IRs from position `i`. -/
def packAll (i : Nat) (image : List Byte) : List IR → AsmResult
  | [] => .ok image
  | ir :: irs =>
    match pack ir with
    | .error e => .error i e
    | .refused => .refused
    | .ok bytes => packAll (i + 1) (image ++ bytes) irs

/-- Assembly in two phases. -/
def assembleTwoPhase (program : List SymInstr) : AsmResult :=
  match encodeAll 0 program with
  | .inr (i, e) => .error i e
  | .inl irs => packAll 0 [] irs

/-! ### Parallel lanes (42_assembly.md R82, 20_memory.md R34) -/

/-- The results of all instructions, each with its position. -/
def positioned (program : List SymInstr) : List (Nat × PackResult) :=
  program.zipIdx.map (fun x => (x.2, assembleOne x.1))

/-- Insert a result by its position. -/
def insertByPosition (r : Nat × PackResult) : List (Nat × PackResult) → List (Nat × PackResult)
  | [] => [r]
  | x :: xs => if r.1 ≤ x.1 then r :: x :: xs else x :: insertByPosition r xs

/-- Put results, in whatever order they were finished, into program order. -/
def byPosition : List (Nat × PackResult) → List (Nat × PackResult)
  | [] => []
  | r :: rs => insertByPosition r (byPosition rs)

/-- Concatenate results that stand in program order; the first failure wins. -/
def concatResults (image : List Byte) : List (Nat × PackResult) → AsmResult
  | [] => .ok image
  | (i, r) :: rs =>
    match r with
    | .error e => .error i e
    | .refused => .refused
    | .ok bytes => concatResults (image ++ bytes) rs

/-- The collector of a lane implementation: results finished in any order give the image in program order, or the error of
the lowest position (42_assembly.md R82). -/
def collect (results : List (Nat × PackResult)) : AsmResult :=
  concatResults [] (byPosition results)

/-- The results of N_LANES lanes (00_scope.md R5 names the parameter and its constraint only). DESIGN CHOICE (log entry 24): lane
`l` takes the positions congruent to `l` modulo N_LANES, and the results come lane by lane, lane 0 first, each lane's in
program order. The spec gives neither the allotment nor the order of delivery; `collect` is about every order. -/
def laneResults (p : Params) (program : List SymInstr) : List (Nat × PackResult) :=
  (List.range p.nLanes).flatMap (fun l => (positioned program).filter (fun r => decide (r.1 % p.nLanes = l)))

/-- Assembly with N_LANES lanes (42_assembly.md R82), the lanes dealt and delivering as log entry 24 says. -/
def assembleLanes (p : Params) (program : List SymInstr) : AsmResult :=
  collect (laneResults p program)

/-! ### A program presented to the sequencer (42_assembly.md R83) -/

/-- The driver's schedule for one program: its instructions in order, then `end`. -/
def schedule (program : List SymInstr) : List Event :=
  program.map Event.instr ++ [.endProgram]

/-- `n` steps of the machine, stopping at a fault or a refusal. -/
def runSteps : Nat → State → Host.Outcome State Fault Refusal
  | 0, s => .next s
  | n + 1, s =>
    match step s with
    | .next t => runSteps n t
    | .fault f => .fault f
    | .refused r => .refused r

/-- The result of a run as the function states it (42_assembly.md R80). -/
def toAsmResult : RunResult → AsmResult
  | .ok image => .ok image
  | .error i (.error e) => .error i e
  | .error _ .noError => .refused

end Sys2Proof.Machine
end

