-- ==== Sys2Proof/Machine/Counters.lean ====
section
/-! DEFINITION. The sequencer with bounded counters (42_assembly.md R84): POSW and OFFW bits. -/

namespace Sys2Proof.Machine

/-- The state's counters fit their registers: `pos ≤ 2^POSW - 1`, `off ≤ 2^OFFW - 1` (10_state.md R20, R21). -/
def countersFit (p : Params) (s : State) : Bool :=
  decide (s.pos < 2 ^ p.posw) && decide (s.off < 2 ^ p.offw)

/-- A step of the sequencer with bounded counters: as `step`, and a step that would take a counter above its limit is refused
(42_assembly.md R84: "a model that uses bounded counters refuses such a program"; "The counters never wrap silently"). -/
def stepBounded (p : Params) (s : State) : Host.Outcome State Fault Refusal :=
  match step s with
  | .next t => if countersFit p t then .next t else .refused .counterLimit
  | .fault f => .fault f
  | .refused r => .refused r

/-- The position register's content (10_state.md R20). -/
def posRegister (p : Params) (s : State) : BitVec p.posw :=
  BitVec.ofNat p.posw s.pos

/-- The offset register's content (10_state.md R21). -/
def offRegister (p : Params) (s : State) : BitVec p.offw :=
  BitVec.ofNat p.offw s.off

end Sys2Proof.Machine
end

