-- ==== Sys2Proof/Machine/Ports.lean ====
section
/-! DEFINITION. The port bindings of 10_state.md R18 and R19, of ENC (40_encoder.md R62), PACK (41_packer.md R73) and the two in
sequence, over the open parameters. What the ports cannot present is refused at the boundary (`none`, R18: "claims nothing
about it"); what they hold without meaning is a free value (log entry 9). -/

namespace Sys2Proof.Machine

/-! ### The operation name on its port -/

/-- A character that the name port can carry: an ASCII code that is not 0x00 (10_state.md R18). -/
def portChar (c : Char) : Bool :=
  decide (0 < c.toNat) && decide (c.toNat < 128)

/-- Character `k` in bits `[8k+7:8k]`, 0x00 after the last (10_state.md R18). -/
def nameToPort (n : Nat) (name : String) : BitVec (8 * n) :=
  BitVec.ofNat (8 * n) (leValue (name.toList.map (fun c => BitVec.ofNat 8 c.toNat)))

/-- The bytes of the name port, byte 0 first. -/
def portBytes (n : Nat) (v : BitVec (8 * n)) : List Byte :=
  leBytes n v.toNat

/-- The characters up to the first 0x00. After it every byte must be 0x00, and every character must be ASCII: other
bit patterns stand for no name (log entry 11). -/
def charsOfPort : List Byte → Option (List Char)
  | [] => some []
  | b :: bs =>
    if b = 0 then (if bs.all (fun x => decide (x = 0)) then some [] else none)
    else if b.toNat < 128 then (charsOfPort bs).map (fun cs => Char.ofNat b.toNat :: cs)
    else none

/-- The name that the port holds. -/
def portToName (n : Nat) (v : BitVec (8 * n)) : Option String :=
  (charsOfPort (portBytes n v)).map String.ofList

/-! ### Operand ports: signed two's complement (10_state.md R18) -/

/-- The integers an OPW-bit port can present: `-2^(OPW-1)` to `2^(OPW-1) - 1`. -/
def intFits (w : Nat) (v : Int) : Bool :=
  decide (-(2 ^ (w - 1) : Int) ≤ v) && decide (v < (2 ^ (w - 1) : Int))

/-- An operand field that the ports can present: absent, or in range. -/
def fieldFits (w : Nat) : Option Int → Bool
  | none => true
  | some v => intFits w v

/-- The operand field that a presence bit and a value port stand for: the value is "ignored when" the presence bit is 0. -/
def fieldOfPort {w : Nat} (isPresent : Bool) (val : BitVec w) : Option Int :=
  if isPresent then some val.toInt else none

/-! ### ENC -/

/-- The record can be presented on ENC's ports (10_state.md R18). -/
def presentable (p : Params) (i : SymInstr) : Bool :=
  decide (i.op.toList.length ≤ p.nameBytes) && i.op.toList.all portChar &&
    fieldFits p.opw i.const && fieldFits p.opw i.addr

/-- The record on ENC's ports, the value ports of absent fields holding 0 (they are ignored); `none` where it cannot be
presented (10_state.md R18: refused at the boundary). -/
def toPorts (p : Params) (i : SymInstr) : Option (EncIn p) :=
  if presentable p i then
    some {
      opName := nameToPort p.nameBytes i.op
      constPresent := i.const.isSome
      constVal := BitVec.ofInt p.opw (i.const.getD 0)
      addrPresent := i.addr.isSome
      addrVal := BitVec.ofInt p.opw (i.addr.getD 0) }
  else none

/-- The record that ENC's ports present; `none` where the name port holds no name. -/
def ofPorts (p : Params) (x : EncIn p) : Option SymInstr :=
  (portToName p.nameBytes x.opName).map (fun name =>
    { op := name, const := fieldOfPort x.constPresent x.constVal, addr := fieldOfPort x.addrPresent x.addrVal })

/-- `err_field`: 0 for `const`, 1 for `addr` (60_exceptions.md R85). -/
def fieldCode : Field → BitVec 1
  | .const => 0
  | .addr => 1

/-- ENC's error ports over don't-care values `d`: the code, and only the payload ports the error lists (60_exceptions.md R85). -/
def encErrorPorts (p : Params) (x : EncIn p) (d : EncOut p) (e : AsmError) : EncOut p :=
  let d := { d with encOk := false, errCode := BitVec.ofNat 3 (errCode e) }
  match e with
  | .unknownOperation _ => { d with errName := x.opName }
  | .operandOutOfRange v f bits =>
    { d with errValue := BitVec.ofInt p.opw v, errField := fieldCode f, errBits := bits }
  | .missingOperand f => { d with errField := fieldCode f }
  | .invalidInstructionSize _ => d

/-- ENC's output ports for an answer (40_encoder.md R62): on success the IR and `err_code = 0`; on failure the error; every
other port a free value. -/
def encOutOf (p : Params) (x : EncIn p) (r : EncResult) : EncOut p :=
  let d := Config.encDontCare p x
  match r with
  | .ok ir =>
    { d with
      encOk := true
      irOpcode := BitVec.ofInt 7 ir.opcode
      irOperand := BitVec.ofInt 23 ir.operand
      irByteWidth := BitVec.ofInt p.bww ir.byteWidth
      errCode := 0 }
  | .error e => encErrorPorts p x d e

/-- ENC at its ports, a combinational function of them (40_encoder.md R62). -/
def encPorts (p : Params) (x : EncIn p) : Option (EncOut p) :=
  (ofPorts p x).map (fun i => encOutOf p x (enc i))

/-! ### PACK -/

/-- The IR that PACK's ports present: three unsigned fields (10_state.md R19). -/
def irOfPorts (p : Params) (x : PackIn p) : IR :=
  { opcode := (x.irOpcode.toNat : Int), operand := (x.irOperand.toNat : Int), byteWidth := (x.irByteWidth.toNat : Int) }

/-- PACK's output ports for bytes (41_packer.md R73): `out_byte3` is 0x00 and not part of the result when there are three. -/
def packOkPorts (p : Params) (d : PackOut p) (bytes : List Byte) : PackOut p :=
  { d with
    packOk := true
    outNbytes := BitVec.ofNat 3 bytes.length
    outByte0 := bytes.getD 0 0
    outByte1 := bytes.getD 1 0
    outByte2 := bytes.getD 2 0
    outByte3 := bytes.getD 3 0
    errCode := 0 }

/-- PACK at its ports, a combinational function of them (41_packer.md R73); `none` where it refuses (R71). -/
def packPorts (p : Params) (x : PackIn p) : Option (PackOut p) :=
  let d := Config.packDontCare p x
  match pack (irOfPorts p x) with
  | .ok bytes => some (packOkPorts p d bytes)
  | .error e => some { d with packOk := false, errCode := BitVec.ofNat 3 (errCode e), errWidth := x.irByteWidth }
  | .refused => none

/-! ### ENC then PACK -/

/-- PACK's input ports as ENC drives them (10_state.md R19). -/
def packInOf (p : Params) (x : EncOut p) : PackIn p :=
  { irOpcode := x.irOpcode, irOperand := x.irOperand, irByteWidth := x.irByteWidth }

/-- The core at its ports: PACK is applied only when ENC succeeded (40_encoder.md R62). When it failed, `pack_ok` is 0 (log
entry 10) and PACK's other ports are free values. -/
def corePorts (p : Params) (x : EncIn p) : Option (CoreOut p) :=
  match encPorts p x with
  | none => none
  | some e =>
    if e.encOk then
      (packPorts p (packInOf p e)).map (fun k => { enc := e, pack := k, errCode := k.errCode })
    else
      some { enc := e, pack := { Config.packIdle p x with packOk := false }, errCode := e.errCode }

end Sys2Proof.Machine
end

