-- ==== Sys2Proof/Safety.lean ====
section
/-! DEFINITION. What a safe run is, in the terms the statements use: the invariants of the sequencer's state, the one safe
ending (`status = DONE`, 42_assembly.md R80), and the bytes of an instruction. -/

namespace Sys2Proof.Machine

/-- The offset register counts the emitted bytes (10_state.md R21: "the number of image bytes emitted so far"). -/
def offCountsBytes (s : State) : Bool :=
  decide (s.off = s.emitted.length)

/-- The emitted bytes are exactly the encodings of `pos` instructions, none half emitted (10_state.md R20: "equal to the number
of instructions assembled so far"; 42_assembly.md R79: "a step is atomic"; 30_encoding.md R44). -/
def imageParses (s : State) : Bool :=
  decide ((parseImage s.emitted).map List.length = some s.pos)

/-- An error that ENC can raise (40_encoder.md R49: never `InvalidInstructionSize`). -/
def isEncError : AsmError → Bool
  | .invalidInstructionSize _ => false
  | _ => true

/-- While ABORTED, `err` holds one of ENC's errors: PACK's cannot occur in the composed core (60_exceptions.md R88). -/
def abortedHasEncError (s : State) : Bool :=
  match s.status, s.err with
  | .aborted, .error e => isEncError e
  | .aborted, .noError => false
  | .run, _ => true
  | .done, _ => true

/-- The sequencer's invariant. -/
def seqInv (s : State) : Bool :=
  offCountsBytes s && imageParses s && abortedHasEncError s

/-- The run is safe: no error has been taken. -/
def notAborted (s : State) : Bool :=
  decide (s.status ≠ .aborted)

/-- Two states with the same registers and outputs of ASM; the schedule and the bench's answers may differ. -/
def sameSequencer (s t : State) : Bool :=
  decide (s.pos = t.pos) && decide (s.off = t.off) && decide (s.status = t.status) && decide (s.err = t.err) &&
    decide (s.emitted = t.emitted) && decide (s.past = t.past)

end Sys2Proof.Machine
end

