-- ==== Sys2Proof/Certificates/Slice0/Obligations.lean ====
section
/-! DEFINITION. The statements for the provers. Those whose docstring says "spec's decision" rest on a rule that the spec marks
[decision] or [derived]; they cite sections, not rules. -/

open Sys2Proof Sys2Proof.Machine

/-! ### Encoding and decoding -/

/-- Words written out from the patterns of 30_encoding.md R43 decode to the instructions they stand for, one of each
operation (the bytes are those of the examples in spec/opcode_table.json). -/
def Obligations.DecodeOfSpecWords : Prop :=
  decode [0x9F, 0x02, 0x00, 0x00] = .instr (.load (some 5) none) [] ∧
  decode [0x79, 0x1A, 0x09] = .instr (.read none (some 0x1234)) [] ∧
  decode [0x1A, 0x00, 0x00] = .instr (.write none (some 0)) [] ∧
  decode [0x08, 0x05, 0x00] = .instr (.rol none (some 10)) []

/-- Every well-formed instruction, encoded from the byte tables of 30_encoding.md R39 and R40 and followed by any bytes,
decodes by the map of R43 to itself without the field its operation does not use; a canonical one to itself. -/
def Obligations.DecodeEncodeRoundTrip : Prop :=
  ∀ (i : Instr) (rest : List Byte), i.wellFormed = true →
    decode (encode i ++ rest) = .instr i.dropUnused rest ∧ (i.canonical = true → i.dropUnused = i)

/-- The other direction: what decodes is the encoding of a well-formed canonical instruction, so each word has one meaning. -/
def Obligations.DecodeYieldsOnlyEncodings : Prop :=
  ∀ (bs : List Byte) (i : Instr) (rest : List Byte), decode bs = .instr i rest →
    i.wellFormed = true ∧ i.canonical = true ∧ bs = encode i ++ rest

/-- The four kinds of pattern that 30_encoding.md R45 lists as never produced get no meaning: other opcodes, bits 31:30 of a
4-byte instruction and bit 23 of a 3-byte one are refused by name; opcode 31 is refused in three bytes and is no instruction
in a 24-bit word, and opcodes 121, 26 and 8 are none in a 32-bit word. The decoder is the spec's oracle (log entries 14, 15). -/
def Obligations.DecodeRefusesNeverProduced : Prop :=
  (∀ (b : Byte) (bs : List Byte), b.toNat % 128 ≠ 31 → b.toNat % 128 ≠ 121 → b.toNat % 128 ≠ 26 → b.toNat % 128 ≠ 8 →
    decode (b :: bs) = .refused (.unknownOpcode (b.toNat % 128))) ∧
  (∀ (b0 b1 b2 b3 : Byte) (rest : List Byte), b0.toNat % 128 = 31 → 0x40 ≤ b3.toNat →
    decode (b0 :: b1 :: b2 :: b3 :: rest) = .refused (.reservedBitsSet .load)) ∧
  (∀ (b0 b1 b2 : Byte) (rest : List Byte), 0x80 ≤ b2.toNat →
    (b0.toNat % 128 = 121 → decode (b0 :: b1 :: b2 :: rest) = .refused (.reservedBitsSet .read)) ∧
    (b0.toNat % 128 = 26 → decode (b0 :: b1 :: b2 :: rest) = .refused (.reservedBitsSet .write)) ∧
    (b0.toNat % 128 = 8 → decode (b0 :: b1 :: b2 :: rest) = .refused (.reservedBitsSet .rol))) ∧
  (∀ b0 b1 b2 : Byte, b0.toNat % 128 = 31 → decode [b0, b1, b2] = .refused .truncated) ∧
  (∀ w : Nat, w % 128 = 31 → decodeTableWord 24 w = none) ∧
  (∀ w : Nat, w % 128 = 121 ∨ w % 128 = 26 ∨ w % 128 = 8 → decodeTableWord 32 w = none)

/-- 30_encoding.md R48: for every valid IR, reading PACK's bytes little-endian, the low 7 bits are the opcode and the
remaining bits the operand. -/
def Obligations.UnpackRecoversPacked : Prop :=
  ∀ ir : IR, wfIR ir = true →
    ∃ bs : List Byte, pack ir = .ok bs ∧ (bs.length : Int) = ir.byteWidth ∧
      unpack bs = (leValue bs % 128, leValue bs / 128) ∧
      ((unpack bs).1 : Int) = ir.opcode ∧ ((unpack bs).2 : Int) = ir.operand

/-- An image that the core produces parses in one way, back into the program's instructions (30_encoding.md R44: spec's
inference), without the fields the operations do not use. -/
def Obligations.ImageParsesBack : Prop :=
  ∀ (program : List SymInstr) (image : List Byte), assemble program = .ok image →
    ∃ is : List Instr, program.map instrOf = is.map some ∧ parseImage image = some (is.map Instr.dropUnused)

/-! ### ENC -/

/-- 10_state.md R11: of the 128 opcodes the Operation Table, and so ENC, produces exactly four; PACK accepts all of them. -/
def Obligations.TableProducesFourOpcodes : Prop :=
  (∀ o : Opcode, (∃ name : String, opTableLookup name = some o) ↔ (o = 8 ∨ o = 26 ∨ o = 31 ∨ o = 121)) ∧
  (∀ (i : SymInstr) (ir : IR), enc i = .ok ir →
    ir.opcode = 8 ∨ ir.opcode = 26 ∨ ir.opcode = 31 ∨ ir.opcode = 121) ∧
  (∀ (o : Opcode) (v : Nat), v ≤ 0xFFFF →
    (∃ bs, pack { opcode := (o.toNat : Int), operand := (v : Int), byteWidth := 3 } = .ok bs) ∧
    (∃ bs, pack { opcode := (o.toNat : Int), operand := (v : Int), byteWidth := 4 } = .ok bs))

/-- 40_encoder.md R56: ENC on `load`, for every content of both fields, through the general function of R49 and as the
instruction's own rule. -/
def Obligations.EncLoadRule : Prop :=
  ∀ (c a : Option Int),
    encLoad c a = enc { op := "load", const := c, addr := a } ∧
    (c = none → encLoad c a = .error (.missingOperand .const)) ∧
    (∀ v : Int, c = some v →
      ((v < 0 ∨ 0x7FFFFF < v) → encLoad c a = .error (.operandOutOfRange v .const 23)) ∧
      (¬(v < 0 ∨ 0x7FFFFF < v) → encLoad c a = .ok { opcode := 31, operand := v, byteWidth := 4 }))

/-- 40_encoder.md R57: ENC on `read`. -/
def Obligations.EncReadRule : Prop :=
  ∀ (c a : Option Int),
    encRead c a = enc { op := "read", const := c, addr := a } ∧
    (a = none → encRead c a = .error (.missingOperand .addr)) ∧
    (∀ v : Int, a = some v →
      ((v < 0 ∨ 0xFFFF < v) → encRead c a = .error (.operandOutOfRange v .addr 16)) ∧
      (¬(v < 0 ∨ 0xFFFF < v) → encRead c a = .ok { opcode := 121, operand := v, byteWidth := 3 }))

/-- 40_encoder.md R58: ENC on `write`. -/
def Obligations.EncWriteRule : Prop :=
  ∀ (c a : Option Int),
    encWrite c a = enc { op := "write", const := c, addr := a } ∧
    (a = none → encWrite c a = .error (.missingOperand .addr)) ∧
    (∀ v : Int, a = some v →
      ((v < 0 ∨ 0xFFFF < v) → encWrite c a = .error (.operandOutOfRange v .addr 16)) ∧
      (¬(v < 0 ∨ 0xFFFF < v) → encWrite c a = .ok { opcode := 26, operand := v, byteWidth := 3 }))

/-- 40_encoder.md R59: ENC on `rol`. -/
def Obligations.EncRolRule : Prop :=
  ∀ (c a : Option Int),
    encRol c a = enc { op := "rol", const := c, addr := a } ∧
    (a = none → encRol c a = .error (.missingOperand .addr)) ∧
    (∀ v : Int, a = some v →
      ((v < 0 ∨ 0xFFFF < v) → encRol c a = .error (.operandOutOfRange v .addr 16)) ∧
      (¬(v < 0 ∨ 0xFFFF < v) → encRol c a = .ok { opcode := 8, operand := v, byteWidth := 3 }))

/-- 60_exceptions.md R86: every name but the four raises `UnknownOperation` with the name as presented, whatever the operand
fields, and aborts the assembly of the whole program whatever stands after it. -/
def Obligations.UnknownNameAbortsProgram : Prop :=
  ∀ i : SymInstr, i.op ≠ "load" → i.op ≠ "read" → i.op ≠ "write" → i.op ≠ "rol" →
    enc i = .error (.unknownOperation i.op) ∧
    ∀ (before after : List SymInstr) (bss : List (List Byte)), before.map assembleOne = bss.map PackResult.ok →
      ∃ k : Nat, assemble (before ++ i :: after) = .error k (.unknownOperation i.op)

/-- 30_encoding.md R37: every accepted `load` gives `byteWidth` 4 and four bytes, every accepted `read`, `write` or `rol`
`byteWidth` 3 and three bytes, and nothing else is accepted. -/
def Obligations.EncodedWidths : Prop :=
  ∀ (i : SymInstr) (ir : IR), enc i = .ok ir →
    ∃ bs : List Byte, pack ir = .ok bs ∧
      ((i.op = "load" ∧ ir.byteWidth = 4 ∧ bs.length = 4) ∨
        ((i.op = "read" ∨ i.op = "write" ∨ i.op = "rol") ∧ ir.byteWidth = 3 ∧ bs.length = 3))

/-- ENC answers an IR that satisfies WF_IR or one of its three errors, never PACK's (40_encoder.md section 1; 10_state.md
section 4: the invariant of ENC's IRs is the spec's inference). -/
def Obligations.EncAnswersWellFormedIR : Prop :=
  ∀ i : SymInstr,
    (∃ ir : IR, enc i = .ok ir ∧ wfIR ir = true ∧
      ((ir.opcode = 31 ∧ ir.byteWidth = 4) ∨
        ((ir.opcode = 121 ∨ ir.opcode = 26 ∨ ir.opcode = 8) ∧ ir.byteWidth = 3))) ∨
    (∃ e : AsmError, enc i = .error e ∧ isEncError e = true)

/-- The operand field that the operation does not use changes nothing (40_encoder.md section 4, spec's decision D4): for
`load`, `read`, `write` and `rol`, in ENC and in the meaning, in every state. -/
def Obligations.UnusedFieldIgnored : Prop :=
  ∀ (i : Instr) (s : State), exec i s = exec i.dropUnused s ∧ enc i.toSym = enc i.dropUnused.toSym

/-! ### PACK -/

/-- 41_packer.md R68: the four bytes of `byteWidth = 4`, for every opcode and every 23-bit operand; the last is at most 0x3F. -/
def Obligations.PackLoadFormat : Prop :=
  ∀ (o : Opcode) (c : BitVec 23),
    pack { opcode := (o.toNat : Int), operand := (c.toNat : Int), byteWidth := 4 } =
      .ok [c.extractLsb' 0 1 ++ o, c.extractLsb' 1 8, c.extractLsb' 9 8, 0#2 ++ c.extractLsb' 17 6] ∧
    (0#2 ++ c.extractLsb' 17 6).toNat ≤ 0x3F ∧ packValue c.toNat o.toNat ≤ 0x3FFFFFFF

/-- 41_packer.md R69: the three bytes of `byteWidth = 3`, for every opcode and every 16-bit operand; the last is at most 0x7F. -/
def Obligations.PackShortFormat : Prop :=
  ∀ (o : Opcode) (a : BitVec 16),
    pack { opcode := (o.toNat : Int), operand := (a.toNat : Int), byteWidth := 3 } =
      .ok [a.extractLsb' 0 1 ++ o, a.extractLsb' 1 8, 0#1 ++ a.extractLsb' 9 7] ∧
    (0#1 ++ a.extractLsb' 9 7).toNat ≤ 0x7F ∧ packValue a.toNat o.toNat ≤ 0x7FFFFF

/-- 41_packer.md R65 and R67: on every IR that satisfies WF_IR, PACK gives exactly `byteWidth` bytes, and byte `k` is
`floor(value / 256^k) mod 256` of `value = (operand << 7) | opcode`. -/
def Obligations.PackBytesOfValue : Prop :=
  ∀ ir : IR, wfIR ir = true →
    ∃ bs : List Byte, pack ir = .ok bs ∧ (bs.length : Int) = ir.byteWidth ∧
      ∀ k : Nat, k < bs.length →
        (bs[k]?).map BitVec.toNat = some (((ir.operand.toNat <<< 7) ||| ir.opcode.toNat) / 256 ^ k % 256)

/-- The size check comes first and carries the offending width (41_packer.md section 2, spec's decision D9). -/
def Obligations.PackSizeCheck : Prop :=
  ∀ ir : IR, ir.byteWidth ≠ 3 → ir.byteWidth ≠ 4 → pack ir = .error (.invalidInstructionSize ir.byteWidth)

/-- An IR with a legal `byteWidth` that breaks WF_IR is refused, and so is the step that presents it to PACK alone
(41_packer.md section 4, spec's decision D10; log entry 7). -/
def Obligations.PackRefusesIllFormed : Prop :=
  ∀ (ir : IR) (s : State) (rest : List Event), (ir.byteWidth = 3 ∨ ir.byteWidth = 4) → wfIR ir = false →
    pack ir = .refused ∧ (s.input = .benchPack ir :: rest → step s = .refused .illFormedIR)

/-- Operand 0 and opcode 0 give all-zero bytes of the requested width (41_packer.md section 4), and ENC never produces opcode
0. That the step which presents such an IR to PACK alone appends the bytes to `bench` is the model's choice (its own field,
log entry 6). -/
def Obligations.PackZeroIsOrdinary : Prop :=
  pack { opcode := 0, operand := 0, byteWidth := 3 } = .ok [0, 0, 0] ∧
  pack { opcode := 0, operand := 0, byteWidth := 4 } = .ok [0, 0, 0, 0] ∧
  (∀ (s : State) (rest : List Event), s.input = .benchPack { opcode := 0, operand := 0, byteWidth := 3 } :: rest →
    step s = .next { s with input := rest, bench := s.bench ++ [.packed [0, 0, 0]] }) ∧
  (∀ (s : State) (rest : List Event), s.input = .benchPack { opcode := 0, operand := 0, byteWidth := 4 } :: rest →
    step s = .next { s with input := rest, bench := s.bench ++ [.packed [0, 0, 0, 0]] }) ∧
  ∀ (i : SymInstr) (ir : IR), enc i = .ok ir → ir.opcode ≠ 0

/-- The arithmetic of the packed value (41_packer.md section 2, the spec's inference R66). -/
def Obligations.PackValueLaws : Prop :=
  ∀ (v o : Nat), o < 128 →
    packValue v o = v * 128 + o ∧ packValue v o % 128 = o ∧ packValue v o / 128 = v ∧
    (v ≤ 0x7FFFFF → packValue v o ≤ 2 ^ 30 - 1) ∧ (v ≤ 0xFFFF → packValue v o ≤ 2 ^ 23 - 1)

/-- Serialization loses nothing that fits (41_packer.md section 4, the spec's inference R72). -/
def Obligations.SerializeLossless : Prop :=
  ∀ (n v : Nat), v < 256 ^ n → (serialize v n).length = n ∧ leValue (serialize v n) = v

/-! ### The instructions presented to ASM

The sequencer's registers are the spec's decision D12 (42_assembly.md section 2). -/

/-- `load` with `const` in range, in RUN: the four bytes of the Load format are emitted, `off` grows by 4, `pos` by 1, and
nothing else changes. -/
def Obligations.LoadAssembles : Prop :=
  ∀ (s : State) (v : Int) (a : Option Int), s.status = .run → 0 ≤ v → v ≤ 0x7FFFFF →
    exec (.load (some v) a) s =
      .next { s with
        pos := s.pos + 1, off := s.off + 4, emitted := s.emitted ++ loadBytes 31 (BitVec.ofInt 23 v) }

/-- `read` with `addr` in range, in RUN: the three bytes of the Short format are emitted, `off` grows by 3, `pos` by 1, and
nothing else changes. -/
def Obligations.ReadAssembles : Prop :=
  ∀ (s : State) (v : Int) (c : Option Int), s.status = .run → 0 ≤ v → v ≤ 0xFFFF →
    exec (.read c (some v)) s =
      .next { s with
        pos := s.pos + 1, off := s.off + 3, emitted := s.emitted ++ shortBytes 121 (BitVec.ofInt 16 v) }

/-- `write` with `addr` in range, in RUN, likewise. -/
def Obligations.WriteAssembles : Prop :=
  ∀ (s : State) (v : Int) (c : Option Int), s.status = .run → 0 ≤ v → v ≤ 0xFFFF →
    exec (.write c (some v)) s =
      .next { s with
        pos := s.pos + 1, off := s.off + 3, emitted := s.emitted ++ shortBytes 26 (BitVec.ofInt 16 v) }

/-- `rol` with `addr` in range, in RUN, likewise. -/
def Obligations.RolAssembles : Prop :=
  ∀ (s : State) (v : Int) (c : Option Int), s.status = .run → 0 ≤ v → v ≤ 0xFFFF →
    exec (.rol c (some v)) s =
      .next { s with
        pos := s.pos + 1, off := s.off + 3, emitted := s.emitted ++ shortBytes 8 (BitVec.ofInt 16 v) }

/-- Where `load`, `read`, `write` and `rol` trap, in RUN: an absent operand field and an operand out of range are taken as
errors (60_exceptions.md section 4, spec's decision D12): `status` and `err` are written, nothing else changes. -/
def Obligations.OperandErrorsAbort : Prop :=
  ∀ s : State, s.status = .run →
    (∀ a : Option Int,
      exec (.load none a) s = .next { s with status := .aborted, err := .error (.missingOperand .const) }) ∧
    (∀ (v : Int) (a : Option Int), v < 0 ∨ 0x7FFFFF < v →
      exec (.load (some v) a) s =
        .next { s with status := .aborted, err := .error (.operandOutOfRange v .const 23) }) ∧
    (∀ (op : Op) (c : Option Int), op ≠ .load →
      exec (mkInstr op c none) s = .next { s with status := .aborted, err := .error (.missingOperand .addr) }) ∧
    (∀ (op : Op) (c : Option Int) (v : Int), op ≠ .load → v < 0 ∨ 0xFFFF < v →
      exec (mkInstr op c (some v)) s =
        .next { s with status := .aborted, err := .error (.operandOutOfRange v .addr 16) })

/-- The frame of `load`, `read`, `write` and `rol`: the schedule, the closed runs and the bench's answers never change; an
emitted byte never changes; bytes are emitted only at the offsets from `off` on, as many as the instruction has, and only by
a well-formed instruction in RUN; the status and the error record change only where an error is taken. The schedule, the
closed runs and the bench's answers are the model's own fields (log entries 1, 5, 6). -/
def Obligations.ExecFrame : Prop :=
  ∀ (i : Instr) (s t : State), exec i s = .next t →
    t.input = s.input ∧ t.past = s.past ∧ t.bench = s.bench ∧
    (∀ k : Nat, k < s.emitted.length → t.emitted[k]? = s.emitted[k]?) ∧
    (s.off = s.emitted.length → ∀ k : Nat, k < s.off ∨ t.off ≤ k → t.emitted[k]? = s.emitted[k]?) ∧
    (i.wellFormed = true → s.status = .run → t.off = s.off + (encode i).length ∧ t.pos = s.pos + 1) ∧
    (i.wellFormed = false ∨ s.status ≠ .run → t.pos = s.pos ∧ t.off = s.off ∧ t.emitted = s.emitted) ∧
    (i.wellFormed = true ∨ s.status ≠ .run → t.status = s.status ∧ t.err = s.err) ∧
    (i.wellFormed = false → s.status = .run → t.status = .aborted)

/-- What an instruction presented in RUN emits, and whether it is accepted, does not depend on the state it is presented in:
any two states in RUN agree (20_memory.md section 7, 40_encoder.md section 4). -/
def Obligations.EncodingIndependentOfState : Prop :=
  ∀ (i : Instr) (s t s' t' : State), s.status = .run → t.status = .run →
    exec i s = .next s' → exec i t = .next t' →
    s'.emitted.drop s.emitted.length = t'.emitted.drop t.emitted.length ∧ s'.status = t'.status ∧
      s'.pos - s.pos = t'.pos - t.pos ∧ s'.off - s.off = t'.off - t.off

/-! ### The step -/

/-- A step runs the decoded instruction: a presented record whose name is in the Operation Table is run by `exec` on the state
past the presentation; so is the instruction of a table word placed with `withFetchWord` (log entry 13). -/
def Obligations.StepRunsDecodedInstruction : Prop :=
  (∀ (s : State) (i : SymInstr) (rest : List Event) (ins : Instr), s.input = .instr i :: rest → instrOf i = some ins →
    step s = exec ins (s.withInput rest)) ∧
  (∀ (s : State) (nbits w : Nat) (ins : Instr), decodeTableWord nbits w = some ins →
    step (s.withFetchWord nbits w) = exec ins { s with status := .run })

/-- The step is the pseudocode of 42_assembly.md section 2 (spec's decision D12) for EVERY presented record, its name in the
table or not: ENC by the general function, then PACK; an error is taken; else the bytes are emitted. -/
def Obligations.StepIsEncThenPack : Prop :=
  ∀ (s : State) (i : SymInstr) (rest : List Event), s.input = .instr i :: rest → s.status = .run →
    (∀ e : AsmError, enc i = .error e →
      step s = .next { s with input := rest, status := .aborted, err := .error e }) ∧
    (∀ ir : IR, enc i = .ok ir → ∃ bs : List Byte, pack ir = .ok bs ∧ (bs.length : Int) = ir.byteWidth ∧
      step s = .next { s with
        input := rest, emitted := s.emitted ++ bs, off := s.off + bs.length, pos := s.pos + 1 })

/-- In DONE and ABORTED an instruction or `end` changes nothing (42_assembly.md section 2, spec's decision D19); its
presentation passes (the model's choice, log entry 2). -/
def Obligations.NotEnabledChangesNothing : Prop :=
  ∀ s : State, s.status ≠ .run →
    (∀ i : Instr, exec i s = .next s) ∧
    (∀ (i : SymInstr) (rest : List Event), s.input = .instr i :: rest → step s = .next { s with input := rest }) ∧
    (∀ rest : List Event, s.input = .endProgram :: rest → step s = .next { s with input := rest })

/-- `end` in RUN: the status becomes DONE, nothing is emitted, and the result of the run is the bytes emitted
(42_assembly.md section 2, spec's decisions D13, D19). -/
def Obligations.EndCompletesRun : Prop :=
  ∀ (s : State) (rest : List Event), s.input = .endProgram :: rest → s.status = .run →
    step s = .next { s with input := rest, status := .done } ∧
    ({ s with input := rest, status := .done } : State).result = some (.ok s.emitted)

/-- Reset, at any time and in any state (70_reset_and_hazards.md section 1, spec's decision D15): the registers are those of
R100; the bytes emitted stay, in `past`, with the status of the moment before (the model's choice, log entry 5). That the rest
of the schedule and the bench's answers stay as they are is the model's choice (log entry 22). -/
def Obligations.ResetAtAnyTime : Prop :=
  ∀ (s : State) (rest : List Event), s.input = .reset :: rest →
    ∃ t : State, step s = .next t ∧ t.pos = 0 ∧ t.off = 0 ∧ t.status = .run ∧ t.emitted = [] ∧
      t.past = s.past ++ [{ bytes := s.emitted, status := s.status }] ∧ t.input = rest ∧ t.bench = s.bench

/-- What the spec fixes of the state after reset (10_state.md section 7, spec's decision D14); nothing is said of `err`. -/
def Obligations.ResetRegisters : Prop :=
  State.reset.pos = 0 ∧ State.reset.off = 0 ∧ State.reset.status = .run ∧ State.reset.emitted = []

/-- DONE and ABORTED are left only by reset, and `err`, `pos`, `off` and the emitted bytes hold until then
(60_exceptions.md section 5, spec's decision D15). -/
def Obligations.StickyUntilReset : Prop :=
  ∀ s t : State, s.status ≠ .run → (∀ rest : List Event, s.input ≠ .reset :: rest) → step s = .next t →
    sameSequencer s t = true

/-- ENC alone and PACK alone answer the test bench and leave the sequencer as it is, in every status (40_encoder.md section 4;
42_assembly.md section 2, last row of the host's table; the field `bench` is the model's, log entry 6). -/
def Obligations.BlocksUsedAlone : Prop :=
  ∀ (s : State) (rest : List Event),
    (∀ i : SymInstr, s.input = .benchEnc i :: rest →
      step s = .next { s with input := rest, bench := s.bench ++ [.encoded (enc i)] }) ∧
    (∀ ir : IR, s.input = .benchPack ir :: rest → wfIR ir = true →
      ∃ bs : List Byte, pack ir = .ok bs ∧
        step s = .next { s with input := rest, bench := s.bench ++ [.packed bs] }) ∧
    (∀ ir : IR, s.input = .benchPack ir :: rest → ir.byteWidth ≠ 3 → ir.byteWidth ≠ 4 →
      step s = .next { s with
        input := rest, bench := s.bench ++ [.packFailed (.invalidInstructionSize ir.byteWidth)] })

/-- Every step completes (70_reset_and_hazards.md section 4, spec's decision D18) but the one that presents PACK alone the
ill-formed IR which the spec refuses (41_packer.md section 4, spec's decision D10). -/
def Obligations.StepStopsOnlyOnIllFormedIR : Prop :=
  ∀ s : State, (∃ t : State, step s = .next t) ∨
    (step s = .refused .illFormedIR ∧
      ∃ (ir : IR) (rest : List Event), s.input = .benchPack ir :: rest ∧
        (ir.byteWidth = 3 ∨ ir.byteWidth = 4) ∧ wfIR ir = false)

/-! ### Invariants of the sequencer -/

/-- Every step keeps the sequencer's invariant: `off` counts the emitted bytes, the emitted bytes are exactly the encodings of
`pos` instructions, and while ABORTED `err` holds one of ENC's errors. -/
def Obligations.SequencerInvariantKept : Prop :=
  ∀ s t : State, seqInv s = true → step s = .next t → seqInv t = true

/-- The state after reset has the invariant. -/
def Obligations.SequencerInvariantAtReset : Prop :=
  seqInv State.reset = true

/-- Under the invariant the two counters bound each other: every instruction has 3 or 4 bytes. -/
def Obligations.CountersBoundEachOther : Prop :=
  ∀ s : State, seqInv s = true → 3 * s.pos ≤ s.off ∧ s.off ≤ 4 * s.pos

/-! ### Program assembly -/

/-- 42_assembly.md R74 and R76: a program whose instructions all succeed gives their bytes in order; the first failing
instruction ends the assembly with its 0-based position and its error, whatever stands after it. -/
def Obligations.AssembleFirstFailure : Prop :=
  (∀ x : SymInstr, (∀ e : AsmError, enc x = .error e → assembleOne x = .error e) ∧
    (∀ ir : IR, enc x = .ok ir → assembleOne x = pack ir)) ∧
  (∀ (program : List SymInstr) (bss : List (List Byte)), program.map assembleOne = bss.map PackResult.ok →
    assemble program = .ok bss.flatten ∧
    ∀ (x : SymInstr) (e : AsmError) (after : List SymInstr), assembleOne x = .error e →
      assemble (program ++ x :: after) = .error program.length e)

/-- Every program assembles to the concatenation of its instructions' bytes or fails at its first failing instruction, with
one of ENC's errors; PACK's error and the refusal never occur (41_packer.md section 4, 60_exceptions.md section 1). -/
def Obligations.AssembleDecides : Prop :=
  ∀ program : List SymInstr,
    (∃ bss : List (List Byte), program.map assembleOne = bss.map PackResult.ok ∧ assemble program = .ok bss.flatten) ∨
    (∃ (before : List SymInstr) (x : SymInstr) (after : List SymInstr) (bss : List (List Byte)) (e : AsmError),
      program = before ++ x :: after ∧ before.map assembleOne = bss.map PackResult.ok ∧ assembleOne x = .error e ∧
        isEncError e = true ∧ assemble program = .error before.length e)

/-- The layout of an image (20_memory.md section 3, 42_assembly.md section 1, the spec's inferences): its length is four bytes
for each `load` and three for each other instruction, and instruction `k` stands at `start(k)` with no gap. -/
def Obligations.ImageLayout : Prop :=
  ∀ (program : List SymInstr) (image : List Byte), assemble program = .ok image →
    image.length = 4 * (program.filter (fun x => decide (x.op = "load"))).length +
      3 * (program.filter (fun x => decide (x.op ≠ "load"))).length ∧
    image.length = startOffset program program.length ∧
    ∀ (k : Nat) (x : SymInstr), program[k]? = some x →
      ∃ bs : List Byte, assembleOne x = .ok bs ∧ bs.length = widthOf x ∧
        (image.drop (startOffset program k)).take (widthOf x) = bs

/-- The two-phase order of the driver's description gives the same result (42_assembly.md section 2, 90_conflicts.md C10). -/
def Obligations.TwoPhaseAgrees : Prop :=
  ∀ program : List SymInstr, assembleTwoPhase program = assemble program

/-- Instructions processed in any order (20_memory.md section 6), their results collected in program order, give what the
assembly gives; where several fail, the error of the lowest position (42_assembly.md section 2, spec's decision D23; the
collector is the model's computation of it, log entry 21). -/
def Obligations.AnyOrderAgrees : Prop :=
  ∀ (program : List SymInstr) (results : List (Nat × PackResult)), results.Perm (positioned program) →
    collect results = assemble program

/-- Any number of lanes is indistinguishable from one (42_assembly.md section 2, spec's decision D23), with the lanes dealt and
delivering as the model chose (log entry 24). -/
def Obligations.LanesAgree : Prop :=
  ∀ (p : Params) (program : List SymInstr), 1 ≤ p.nLanes → assembleLanes p program = assemble program

/-- The sequencer refines the function (42_assembly.md section 2, spec's decisions D1, D12, D13): from ANY state in RUN whose
schedule begins with a program and its `end`, the machine's steps give what `assemble` says, beside what had been emitted
before. On an error exactly the bytes of the instructions before the failing one have been emitted. That the items left after
an abort pass, so that the schedule goes on behind `end`, is the model's choice (log entry 2); `past` and `bench`, the model's
own fields (log entries 5, 6), do not change. -/
def Obligations.SequencerRefinesAssemble : Prop :=
  ∀ (s : State) (program : List SymInstr) (rest : List Event), s.status = .run → s.input = schedule program ++ rest →
    ∃ t : State, runSteps (program.length + 1) s = .next t ∧ t.input = rest ∧ t.past = s.past ∧ t.bench = s.bench ∧
      assemble program ≠ .refused ∧
      (∀ image : List Byte, assemble program = .ok image →
        t.status = .done ∧ t.emitted = s.emitted ++ image ∧ t.pos = s.pos + program.length ∧
          t.off = s.off + image.length) ∧
      (∀ (k : Nat) (e : AsmError), assemble program = .error k e →
        t.status = .aborted ∧ t.err = .error e ∧ t.pos = s.pos + k ∧ t.off = s.off + startOffset program k ∧
          ∃ image : List Byte, assemble (program.take k) = .ok image ∧ t.emitted = s.emitted ++ image)

/-- The observable result of a run equals `assemble` of the program presented (42_assembly.md section 2, spec's decision D13),
from any state with nothing assembled yet. -/
def Obligations.RunResultIsAssemble : Prop :=
  ∀ (s : State) (program : List SymInstr) (rest : List Event), s.status = .run → s.pos = 0 → s.emitted = [] →
    s.input = schedule program ++ rest →
    ∃ t : State, runSteps (program.length + 1) s = .next t ∧ t.result.map toAsmResult = some (assemble program)

/-- The same program presented again after reset gives the same result (60_exceptions.md section 5, spec's decision D15). The
model's choices: after an abort the reset is reached because the items before it pass (log entry 2), reset leaves the
schedule (log entry 22), and the bytes of the first run are kept in `past` (log entry 5). -/
def Obligations.RepeatAfterReset : Prop :=
  ∀ (s : State) (program : List SymInstr), s.status = .run → s.pos = 0 → s.emitted = [] →
    s.input = schedule program ++ .reset :: schedule program →
    ∃ t u : State, runSteps (program.length + 1) s = .next t ∧ runSteps (2 * program.length + 3) s = .next u ∧
      u.result = t.result ∧ u.past = s.past ++ [{ bytes := t.emitted, status := t.status }]

/-! ### Counters with a limit, and the error codes -/

/-- The sequencer with bounded counters (42_assembly.md section 2, spec's decision D12): it steps exactly as the unbounded one
while the counters fit, its registers then hold the counters exactly, and it refuses a step that would pass a limit. -/
def Obligations.BoundedCountersAgree : Prop :=
  ∀ (p : Params) (s t : State), step s = .next t →
    (countersFit p t = true →
      stepBounded p s = .next t ∧ (posRegister p t).toNat = t.pos ∧ (offRegister p t).toNat = t.off) ∧
    (countersFit p t = false → stepBounded p s = .refused .counterLimit)

/-- The numeric codes (60_exceptions.md section 1, spec's decision D6). -/
def Obligations.ErrorCodes : Prop :=
  errRecordCode .noError = 0 ∧
  (∀ name : String, errRecordCode (.error (.unknownOperation name)) = 1) ∧
  (∀ (v : Int) (f : Field) (n : Nat), errRecordCode (.error (.operandOutOfRange v f n)) = 2) ∧
  (∀ w : Int, errRecordCode (.error (.invalidInstructionSize w)) = 3) ∧
  (∀ f : Field, errRecordCode (.error (.missingOperand f)) = 4)

/-! ### Ports (10_state.md section 5, spec's decisions D2, D3, D6 to D8, D11) -/

/-- A record that the ports can present is read back from them unchanged. -/
def Obligations.PortsCarryRecords : Prop :=
  ∀ (p : Params) (i : SymInstr) (x : EncIn p), p.Valid → toPorts p i = some x → ofPorts p x = some i

/-- ENC at its ports agrees with ENC on records, for EVERY content of the ports that presents a record, whatever the value
port of an absent field holds (10_state.md section 5: it is ignored): the IR on success, the code and the payload that the
error lists on failure. Nothing is said of the ports without meaning, which are free values (log entry 9). -/
def Obligations.EncPortsAgree : Prop :=
  ∀ (p : Params) (i : SymInstr) (x : EncIn p), p.Valid → ofPorts p x = some i →
    ∃ y : EncOut p, encPorts p x = some y ∧
      (∀ ir : IR, enc i = .ok ir →
        y.encOk = true ∧ y.errCode = 0 ∧ (y.irOpcode.toNat : Int) = ir.opcode ∧
          (y.irOperand.toNat : Int) = ir.operand ∧ (y.irByteWidth.toNat : Int) = ir.byteWidth) ∧
      (∀ e : AsmError, enc i = .error e → y.encOk = false ∧ y.errCode.toNat = errCode e) ∧
      (∀ name : String, enc i = .error (.unknownOperation name) → y.errName = x.opName) ∧
      (∀ (v : Int) (f : Field) (n : Nat), enc i = .error (.operandOutOfRange v f n) →
        y.errValue.toInt = v ∧ y.errField = fieldCode f ∧ y.errBits = n) ∧
      (∀ f : Field, enc i = .error (.missingOperand f) → y.errField = fieldCode f)

/-- PACK at its ports, for everything they can present: the size error, the two widths, and the one refusal. -/
def Obligations.PackPortsAgree : Prop :=
  ∀ (p : Params) (x : PackIn p),
    (x.irByteWidth.toNat ≠ 3 → x.irByteWidth.toNat ≠ 4 →
      ∃ y : PackOut p, packPorts p x = some y ∧ y.packOk = false ∧ y.errCode = 3 ∧ y.errWidth = x.irByteWidth) ∧
    (x.irByteWidth.toNat = 3 → x.irOperand.toNat ≤ 0xFFFF →
      ∃ y : PackOut p, packPorts p x = some y ∧ y.packOk = true ∧ y.errCode = 0 ∧ y.outNbytes = 3 ∧
        [y.outByte0, y.outByte1, y.outByte2] = shortBytes x.irOpcode (x.irOperand.setWidth 16) ∧ y.outByte3 = 0) ∧
    (x.irByteWidth.toNat = 3 → 0xFFFF < x.irOperand.toNat → packPorts p x = none) ∧
    (x.irByteWidth.toNat = 4 →
      ∃ y : PackOut p, packPorts p x = some y ∧ y.packOk = true ∧ y.errCode = 0 ∧ y.outNbytes = 4 ∧
        [y.outByte0, y.outByte1, y.outByte2, y.outByte3] = loadBytes x.irOpcode x.irOperand)

/-- The core at its ports agrees with ENC then PACK on records, for every content of the ports that presents a record. That `pack_ok` is 0 when ENC fails is the model's reading
(log entry 10). -/
def Obligations.CorePortsAgree : Prop :=
  ∀ (p : Params) (i : SymInstr) (x : EncIn p), p.Valid → ofPorts p x = some i →
    ∃ y : CoreOut p, corePorts p x = some y ∧
      (∀ bs : List Byte, assembleOne i = .ok bs →
        y.enc.encOk = true ∧ y.pack.packOk = true ∧ y.errCode = 0 ∧ y.pack.outNbytes.toNat = bs.length ∧
          [y.pack.outByte0, y.pack.outByte1, y.pack.outByte2, y.pack.outByte3].take bs.length = bs) ∧
      (∀ e : AsmError, assembleOne i = .error e →
        y.enc.encOk = false ∧ y.pack.packOk = false ∧ y.errCode.toNat = errCode e)
end

