-- ==== Sys2Proof/Laws/State.lean ====
section
/-! SUPPORT. One lemma per field for each named update of the state, so that no later proof unfolds a record update. -/

namespace Sys2Proof.Machine

section WithInput
variable (s : State) (l : List Event)
@[simp] theorem withInput_pos : (s.withInput l).pos = s.pos := rfl
@[simp] theorem withInput_off : (s.withInput l).off = s.off := rfl
@[simp] theorem withInput_status : (s.withInput l).status = s.status := rfl
@[simp] theorem withInput_err : (s.withInput l).err = s.err := rfl
@[simp] theorem withInput_emitted : (s.withInput l).emitted = s.emitted := rfl
@[simp] theorem withInput_past : (s.withInput l).past = s.past := rfl
@[simp] theorem withInput_input : (s.withInput l).input = l := rfl
@[simp] theorem withInput_bench : (s.withInput l).bench = s.bench := rfl
@[simp] theorem withInput_enabled : (s.withInput l).enabled = s.enabled := rfl
end WithInput

section WithError
variable (s : State) (e : AsmError)
@[simp] theorem withError_pos : (s.withError e).pos = s.pos := rfl
@[simp] theorem withError_off : (s.withError e).off = s.off := rfl
@[simp] theorem withError_status : (s.withError e).status = .aborted := rfl
@[simp] theorem withError_err : (s.withError e).err = .error e := rfl
@[simp] theorem withError_emitted : (s.withError e).emitted = s.emitted := rfl
@[simp] theorem withError_past : (s.withError e).past = s.past := rfl
@[simp] theorem withError_input : (s.withError e).input = s.input := rfl
@[simp] theorem withError_bench : (s.withError e).bench = s.bench := rfl
@[simp] theorem takeError_eq : takeError e s = s.withError e := rfl
end WithError

section WithEmitted
variable (s : State) (bs : List Byte) (n : Nat)
@[simp] theorem withEmitted_pos : (s.withEmitted bs n).pos = s.pos + 1 := rfl
@[simp] theorem withEmitted_off : (s.withEmitted bs n).off = s.off + n := rfl
@[simp] theorem withEmitted_status : (s.withEmitted bs n).status = s.status := rfl
@[simp] theorem withEmitted_err : (s.withEmitted bs n).err = s.err := rfl
@[simp] theorem withEmitted_emitted : (s.withEmitted bs n).emitted = s.emitted ++ bs := rfl
@[simp] theorem withEmitted_past : (s.withEmitted bs n).past = s.past := rfl
@[simp] theorem withEmitted_input : (s.withEmitted bs n).input = s.input := rfl
@[simp] theorem withEmitted_bench : (s.withEmitted bs n).bench = s.bench := rfl
end WithEmitted

section WithStatus
variable (s : State) (u : Status)
@[simp] theorem withStatus_pos : (s.withStatus u).pos = s.pos := rfl
@[simp] theorem withStatus_off : (s.withStatus u).off = s.off := rfl
@[simp] theorem withStatus_status : (s.withStatus u).status = u := rfl
@[simp] theorem withStatus_err : (s.withStatus u).err = s.err := rfl
@[simp] theorem withStatus_emitted : (s.withStatus u).emitted = s.emitted := rfl
@[simp] theorem withStatus_past : (s.withStatus u).past = s.past := rfl
@[simp] theorem withStatus_input : (s.withStatus u).input = s.input := rfl
@[simp] theorem withStatus_bench : (s.withStatus u).bench = s.bench := rfl
end WithStatus

section WithBench
variable (s : State) (r : BenchResult)
@[simp] theorem withBench_pos : (s.withBench r).pos = s.pos := rfl
@[simp] theorem withBench_off : (s.withBench r).off = s.off := rfl
@[simp] theorem withBench_status : (s.withBench r).status = s.status := rfl
@[simp] theorem withBench_err : (s.withBench r).err = s.err := rfl
@[simp] theorem withBench_emitted : (s.withBench r).emitted = s.emitted := rfl
@[simp] theorem withBench_past : (s.withBench r).past = s.past := rfl
@[simp] theorem withBench_input : (s.withBench r).input = s.input := rfl
@[simp] theorem withBench_bench : (s.withBench r).bench = s.bench ++ [r] := rfl
end WithBench

section ApplyReset
variable (s : State)
@[simp] theorem applyReset_pos : (applyReset s).pos = 0 := rfl
@[simp] theorem applyReset_off : (applyReset s).off = 0 := rfl
@[simp] theorem applyReset_status : (applyReset s).status = .run := rfl
@[simp] theorem applyReset_emitted : (applyReset s).emitted = [] := rfl
@[simp] theorem applyReset_past :
    (applyReset s).past = s.past ++ [{ bytes := s.emitted, status := s.status }] := rfl
@[simp] theorem applyReset_input : (applyReset s).input = s.input := rfl
@[simp] theorem applyReset_bench : (applyReset s).bench = s.bench := rfl
end ApplyReset

@[simp] theorem enabled_iff (s : State) : s.enabled = true ↔ s.status = .run := by
  simp [State.enabled]

end Sys2Proof.Machine
end

