-- ==== Sys2Proof/Laws/Ops.lean ====
section
/-! SUPPORT. One lemma for each shared operation that says everything it can do; proofs cite these instead of unfolding. -/

namespace Sys2Proof.Machine

/-! ### ENC's operand stage -/

/-- Everything `encodeOperand` can answer (40_encoder.md R52 to R55). -/
theorem encodeOperand_cases (o : Opcode) (f : Format) (c a : Option Int) :
    (selectField (fieldOf f) c a = none ∧ encodeOperand o f c a = .error (.missingOperand (fieldOf f))) ∨
    (∃ v, selectField (fieldOf f) c a = some v ∧ inRange f v = true ∧
      encodeOperand o f c a = .ok { opcode := (o.toNat : Int), operand := v, byteWidth := (formatBytes f : Int) }) ∨
    (∃ v, selectField (fieldOf f) c a = some v ∧ inRange f v = false ∧
      encodeOperand o f c a = .error (.operandOutOfRange v (fieldOf f) (opBits f))) := by
  unfold encodeOperand
  cases h : selectField (fieldOf f) c a with
  | none => exact .inl ⟨rfl, rfl⟩
  | some v =>
    cases hr : inRange f v with
    | true => exact .inr (.inl ⟨v, rfl, hr, by simp [hr]⟩)
    | false => exact .inr (.inr ⟨v, rfl, hr, by simp [hr]⟩)

theorem inRange_iff (f : Format) (v : Int) : inRange f v = true ↔ 0 ≤ v ∧ v ≤ maxOperand f := by
  simp [inRange]

theorem wfIR_iff (ir : IR) :
    wfIR ir = true ↔ 0 ≤ ir.opcode ∧ ir.opcode ≤ 127 ∧ 0 ≤ ir.operand ∧
      ((ir.byteWidth = 3 ∧ ir.operand ≤ 0xFFFF) ∨ (ir.byteWidth = 4 ∧ ir.operand ≤ 0x7FFFFF)) := by
  simp [wfIR, and_assoc]

/-- An operand in range gives an IR that satisfies WF_IR. -/
theorem wfIR_of_inRange (o : Opcode) (f : Format) (v : Int) (h : inRange f v = true) :
    wfIR { opcode := (o.toNat : Int), operand := v, byteWidth := (formatBytes f : Int) } = true := by
  obtain ⟨h0, hm⟩ := (inRange_iff f v).1 h
  have ho : o.toNat < 128 := o.isLt
  rw [wfIR_iff]
  cases f <;> simp [formatBytes, maxOperand] at * <;> omega

/-! ### PACK -/

/-- Everything `pack` can answer (41_packer.md R63, R64, R71). -/
theorem pack_cases (ir : IR) :
    (ir.byteWidth ≠ 3 ∧ ir.byteWidth ≠ 4 ∧ pack ir = .error (.invalidInstructionSize ir.byteWidth)) ∨
    ((ir.byteWidth = 3 ∨ ir.byteWidth = 4) ∧ wfIR ir = false ∧ pack ir = .refused) ∨
    (wfIR ir = true ∧
      pack ir = .ok (serialize (packValue ir.operand.toNat ir.opcode.toNat) ir.byteWidth.toNat)) := by
  unfold pack
  by_cases hw : ir.byteWidth ≠ 3 ∧ ir.byteWidth ≠ 4
  · exact .inl ⟨hw.1, hw.2, by simp [hw]⟩
  · rw [if_neg hw]
    cases hr : wfIR ir with
    | false => exact .inr (.inl ⟨by omega, rfl, by simp⟩)
    | true => exact .inr (.inr ⟨rfl, by simp⟩)

/-- WF_IR is all PACK needs. -/
theorem pack_of_wfIR (ir : IR) (h : wfIR ir = true) :
    pack ir = .ok (serialize (packValue ir.operand.toNat ir.opcode.toNat) ir.byteWidth.toNat) := by
  have hw := (wfIR_iff ir).1 h
  obtain ⟨h3, h4, -⟩ | ⟨-, hf, -⟩ | ⟨-, hp⟩ := pack_cases ir
  · omega
  · rw [h] at hf; cases hf
  · exact hp

@[simp] theorem serialize_length (v n : Nat) : (serialize v n).length = n := by
  simp [serialize]

/-! ### The sequencer -/

/-- Everything `asmStep` can do where it is given an operand-stage answer (42_assembly.md R79, R81): it is always a next state. -/
theorem asmStep_encodeOperand_cases (o : Opcode) (f : Format) (c a : Option Int) (s : State) :
    (s.enabled = false ∧ asmStep (encodeOperand o f c a) s = .next s) ∨
    (s.enabled = true ∧ ∃ e, encodeOperand o f c a = .error e ∧
      asmStep (encodeOperand o f c a) s = .next (s.withError e)) ∨
    (s.enabled = true ∧ ∃ v, selectField (fieldOf f) c a = some v ∧ inRange f v = true ∧
      asmStep (encodeOperand o f c a) s =
        .next (s.withEmitted (serialize (packValue v.toNat o.toNat) (formatBytes f)) (formatBytes f))) := by
  cases hs : s.enabled with
  | false => exact .inl ⟨rfl, by simp [asmStep, hs]⟩
  | true =>
    obtain ⟨-, h⟩ | ⟨v, hv, hr, h⟩ | ⟨v, hv, -, h⟩ := encodeOperand_cases o f c a
    · exact .inr (.inl ⟨rfl, _, h, by simp [asmStep, hs, h]⟩)
    · refine .inr (.inr ⟨rfl, v, hv, hr, ?_⟩)
      have hp := pack_of_wfIR _ (wfIR_of_inRange o f v hr)
      simp [asmStep, hs, h, hp]
    · exact .inr (.inl ⟨rfl, _, h, by simp [asmStep, hs, h]⟩)

/-- An error answer: taken in RUN, nothing otherwise. -/
theorem asmStep_error (e : AsmError) (s : State) :
    asmStep (.error e) s = .next (if s.enabled then s.withError e else s) := by
  unfold asmStep
  split <;> simp

/-- The `end` event moves RUN to DONE and changes nothing else (42_assembly.md R81). -/
theorem applyEnd_eq (s : State) : applyEnd s = if s.status = .run then s.withStatus .done else s := by
  unfold applyEnd
  by_cases h : s.status = .run <;> simp [State.enabled, h]

/-- Everything PACK alone can do (42_assembly.md R83). -/
theorem benchPack_cases (ir : IR) (s : State) :
    (∃ bs, pack ir = .ok bs ∧ benchPack ir s = .next (s.withBench (.packed bs))) ∨
    (∃ e, pack ir = .error e ∧ benchPack ir s = .next (s.withBench (.packFailed e))) ∨
    (pack ir = .refused ∧ benchPack ir s = .refused .illFormedIR) := by
  unfold benchPack
  cases pack ir with
  | ok bs => exact .inl ⟨bs, rfl, rfl⟩
  | error e => exact .inr (.inl ⟨e, rfl, rfl⟩)
  | refused => exact .inr (.inr ⟨rfl, rfl⟩)

/-! ### The step -/

theorem step_nil (s : State) (h : s.input = []) : step s = .next s := by
  simp [step, h]

theorem step_cons (s : State) (e : Event) (rest : List Event) (h : s.input = e :: rest) :
    step s = present e (s.withInput rest) := by
  simp [step, h]

end Sys2Proof.Machine
end

