-- ==== Sys2Proof/Laws/Encoding.lean ====
section
/-! SUPPORT. The bytes of the two formats as integers, and PACK's value and bytes, so that no later proof opens a bit field. -/

namespace Sys2Proof

theorem bit_append_toNat (n k m : Nat) (b : BitVec n) (o : BitVec m) :
    (b.extractLsb' k 1 ++ o).toNat = b.toNat / 2 ^ k % 2 * 2 ^ m + o.toNat := by
  rw [BitVec.toNat_append, BitVec.extractLsb'_toNat, Nat.shiftRight_eq_div_pow,
    ← Nat.shiftLeft_add_eq_or_of_lt o.isLt, Nat.shiftLeft_eq]

theorem zeros_append_toNat (n m : Nat) (b : BitVec m) : (0#n ++ b).toNat = b.toNat := by
  simp [BitVec.toNat_append]

/-- The Load-format bytes hold `c * 128 + o` (30_encoding.md R38). -/
theorem leValue_loadBytes (o : Opcode) (c : BitVec 23) : leValue (loadBytes o c) = c.toNat * 128 + o.toNat := by
  have hc := c.isLt
  have h0 := bit_append_toNat 23 0 7 c o
  have h3 := zeros_append_toNat 2 6 (c.extractLsb' 17 6)
  simp only [leValue, loadBytes, BitVec.extractLsb'_toNat, Nat.shiftRight_eq_div_pow] at *
  rw [h0, h3]
  omega

/-- The Short-format bytes hold `a * 128 + o` (30_encoding.md R38). -/
theorem leValue_shortBytes (o : Opcode) (a : BitVec 16) : leValue (shortBytes o a) = a.toNat * 128 + o.toNat := by
  have ha := a.isLt
  have h0 := bit_append_toNat 16 0 7 a o
  have h3 := zeros_append_toNat 1 7 (a.extractLsb' 9 7)
  simp only [leValue, shortBytes, BitVec.extractLsb'_toNat, Nat.shiftRight_eq_div_pow] at *
  rw [h0, h3]
  omega

/-- A little-endian integer fits its bytes. -/
theorem leValue_lt (bs : List Byte) : leValue bs < 256 ^ bs.length := by
  induction bs with
  | nil => simp [leValue]
  | cons b bs ih =>
    have hb := b.isLt
    simp only [leValue, List.length_cons, Nat.pow_succ]
    omega

/-- Byte sequences of one length are equal when they hold the same integer. -/
theorem leValue_injective : ∀ (as bs : List Byte), as.length = bs.length → leValue as = leValue bs → as = bs
  | [], [], _, _ => rfl
  | a :: as, b :: bs, hl, hv => by
    have ha := a.isLt
    have hb := b.isLt
    simp only [leValue] at hv
    have hab : a = b := BitVec.eq_of_toNat_eq (by omega)
    subst hab
    rw [leValue_injective as bs (by simpa using hl) (by omega)]

/-- An operand in range, put in the Load format's field and read back. -/
theorem ofInt_toNat (w : Nat) (v : Int) (h0 : 0 ≤ v) (hw : v < 2 ^ w) :
    ((BitVec.ofInt w v).toNat : Int) = v := by
  rw [BitVec.toNat_ofInt, Int.emod_eq_of_lt h0 (by exact_mod_cast hw)]
  exact Int.toNat_of_nonneg h0

namespace Machine

/-- The OR of 41_packer.md R65 meets no two 1 bits. -/
theorem packValue_of_lt (v : Nat) (o : Opcode) : packValue v o.toNat = v * 128 + o.toNat := by
  unfold packValue
  rw [← Nat.shiftLeft_add_eq_or_of_lt o.isLt, Nat.shiftLeft_eq]

theorem serialize_zero (v : Nat) : serialize v 0 = [] := rfl

theorem serialize_succ (v n : Nat) : serialize v (n + 1) = valueByte v 0 :: serialize (v / 256) n := by
  have h : ∀ k, valueByte v (k + 1) = valueByte (v / 256) k := by
    intro k
    simp only [valueByte, Nat.pow_succ, Nat.mul_comm, ← Nat.div_div_eq_div_mul]
  simp [serialize, List.range_succ_eq_map, Function.comp_def, h]

end Machine

end Sys2Proof
end

