-- ==== Sys2Proof/Laws/Parse.lean ====
section
/-! SUPPORT. The decoder and the image parser over concatenation: an invariant about the emitted bytes is kept by emitting one
more instruction. -/

namespace Sys2Proof

theorem encRow_bytes (n : Nat) (row : EncRow) (h : encRow n = some row) : row.bytes = 3 ∨ row.bytes = 4 := by
  have hm := List.mem_of_find?_eq_some h
  simp only [encTable, List.mem_cons, List.not_mem_nil, or_false] at hm
  rcases hm with rfl | rfl | rfl | rfl <;> simp

/-- Everything a successful decode says (30_encoding.md R43, R44). -/
theorem decode_instr (bs : List Byte) (i : Instr) (rest : List Byte) (h : decode bs = .instr i rest) :
    ∃ (b0 : Byte) (tail : List Byte) (row : EncRow), bs = b0 :: tail ∧ encRow (b0.toNat % 128) = some row ∧
      row.bytes ≤ bs.length ∧ leValue (bs.take row.bytes) &&& row.mask = row.pattern ∧
      i = mkDecoded row.op (leValue (bs.take row.bytes) >>> 7) ∧ rest = bs.drop row.bytes := by
  cases bs with
  | nil => simp [decode] at h
  | cons b0 tail =>
    simp only [decode] at h
    split at h
    · cases h
    · next row hrow =>
      split at h
      · cases h
      · split at h
        · next hl hm =>
          cases h
          exact ⟨b0, tail, row, rfl, hrow, by omega, hm, rfl, rfl⟩
        · cases h

theorem decode_rest_length (bs : List Byte) (i : Instr) (rest : List Byte) (h : decode bs = .instr i rest) :
    rest.length + 3 ≤ bs.length ∧ bs.length ≤ rest.length + 4 := by
  obtain ⟨b0, tail, row, -, hrow, hl, -, -, rfl⟩ := decode_instr bs i rest h
  have hb := encRow_bytes _ _ hrow
  rw [List.length_drop]
  omega

/-- More bytes behind an instruction do not change how it is read. -/
theorem decode_append (bs more : List Byte) (i : Instr) (rest : List Byte) (h : decode bs = .instr i rest) :
    decode (bs ++ more) = .instr i (rest ++ more) := by
  obtain ⟨b0, tail, row, rfl, hrow, hl, hm, rfl, rfl⟩ := decode_instr bs i rest h
  have ht : ((b0 :: tail) ++ more).take row.bytes = (b0 :: tail).take row.bytes := List.take_append_of_le_length hl
  have hd : ((b0 :: tail) ++ more).drop row.bytes = (b0 :: tail).drop row.bytes ++ more :=
    List.drop_append_of_le_length hl
  have hlen : ¬ ((b0 :: tail) ++ more).length < row.bytes := by rw [List.length_append]; omega
  rw [List.cons_append] at ht hd hlen ⊢
  simp only [decode, hrow, ht, hd, if_neg hlen, if_pos hm]

/-- Fuel beyond the length changes nothing. -/
theorem parseFuel_mono : ∀ (n m : Nat) (bs : List Byte) (is : List Instr), n ≤ m →
    parseFuel n bs = some is → parseFuel m bs = some is
  | n, m, [], is, _, h => by
    cases n <;> cases m <;> simpa [parseFuel] using h
  | 0, _, b :: bs, is, _, h => by simp [parseFuel] at h
  | n + 1, 0, b :: bs, is, hnm, _ => by omega
  | n + 1, m + 1, b :: bs, is, hnm, h => by
    simp only [parseFuel] at h ⊢
    cases hd : decode (b :: bs) with
    | refused w => simp [hd] at h
    | instr i rest =>
      simp only [hd, Option.map_eq_some_iff] at h ⊢
      obtain ⟨js, hj, rfl⟩ := h
      exact ⟨js, parseFuel_mono n m rest js (by omega) hj, rfl⟩

theorem parseFuel_append : ∀ (n m : Nat) (as bs : List Byte) (is js : List Instr),
    parseFuel n as = some is → parseFuel m bs = some js → parseFuel (n + m) (as ++ bs) = some (is ++ js)
  | n, m, [], bs, is, js, ha, hb => by
    have h0 : is = [] := by cases n <;> simpa [parseFuel, eq_comm] using ha
    subst h0
    exact parseFuel_mono m (n + m) bs js (by omega) hb
  | 0, _, a :: as, _, _, _, ha, _ => by simp [parseFuel] at ha
  | n + 1, m, a :: as, bs, is, js, ha, hb => by
    simp only [parseFuel] at ha
    cases hd : decode (a :: as) with
    | refused w => simp [hd] at ha
    | instr i rest =>
      simp only [hd, Option.map_eq_some_iff] at ha
      obtain ⟨ks, hk, rfl⟩ := ha
      have happ := decode_append (a :: as) bs i rest hd
      have ih := parseFuel_append n m rest bs ks js hk hb
      rw [show n + 1 + m = (n + m) + 1 by omega]
      simp only [List.cons_append] at happ ⊢
      simp only [parseFuel, happ, ih, Option.map_some]

/-- The parse of a concatenation of two images (30_encoding.md R44). -/
theorem parseImage_append (as bs : List Byte) (is js : List Instr)
    (ha : parseImage as = some is) (hb : parseImage bs = some js) : parseImage (as ++ bs) = some (is ++ js) := by
  have h := parseFuel_append as.length bs.length as bs is js ha hb
  unfold parseImage
  rw [List.length_append]
  exact h

/-- The bytes of one instruction are an image of it. -/
theorem parseImage_of_decode (bs : List Byte) (i : Instr) (h : decode bs = .instr i []) : parseImage bs = some [i] := by
  obtain ⟨b0, tail, row, rfl, -⟩ := decode_instr bs i [] h
  simp [parseImage, parseFuel, h]

end Sys2Proof
end

