-- ==== Sys2Proof/Laws/PerInstr.lean ====
section
/-! SUPPORT. Two statements about every instruction as syntax, one lemma per constructor. -/

namespace Sys2Proof.Laws.NameReadsBack

/-- The record that presents an instruction is read as that instruction: its name is in the Operation Table (10_state.md R9)
and both operand fields come through (R14). -/
def Statement (i : Instr) : Prop := instrOf i.toSym = some i

theorem load (c a : Option Int) : Statement (.load c a) := rfl
theorem read (c a : Option Int) : Statement (.read c a) := rfl
theorem write (c a : Option Int) : Statement (.write c a) := rfl
theorem rol (c a : Option Int) : Statement (.rol c a) := rfl

end Sys2Proof.Laws.NameReadsBack

namespace Sys2Proof.Laws.EncodedWidth

/-- An instruction has 4 bytes if it is a `load` and 3 otherwise (30_encoding.md R37). -/
def Statement (i : Instr) : Prop := (encode i).length = if i.op = .load then 4 else 3

theorem load (c a : Option Int) : Statement (.load c a) := rfl
theorem read (c a : Option Int) : Statement (.read c a) := rfl
theorem write (c a : Option Int) : Statement (.write c a) := rfl
theorem rol (c a : Option Int) : Statement (.rol c a) := rfl

end Sys2Proof.Laws.EncodedWidth
end

