-- ==== Sys2Proof/Tests/Slice0.lean ====
section
/-! SUPPORT. Small tests. Expected values are the spec's: 95_test_vectors.md (its ids S1 to S12, tables 2.1 to 2.6, programs P1
to P9), the tables of 30_encoding.md and the rules cited. -/

namespace Sys2Proof.Tests

open Sys2Proof.Machine

/-! ### WellFormed refuses an ill-formed term for each check (30_encoding.md R46) -/

theorem test_wf_load_max : Instr.wellFormed (.load (some 0x7FFFFF) (some (-9))) = true := by decide
theorem test_wf_load_absent : Instr.wellFormed (.load none (some 7)) = false := by decide
theorem test_wf_load_negative : Instr.wellFormed (.load (some (-1)) none) = false := by decide
theorem test_wf_load_too_large : Instr.wellFormed (.load (some 0x800000) none) = false := by decide
theorem test_wf_read_max : Instr.wellFormed (.read none (some 0xFFFF)) = true := by decide
theorem test_wf_read_absent : Instr.wellFormed (.read (some 3) none) = false := by decide
theorem test_wf_read_negative : Instr.wellFormed (.read none (some (-1))) = false := by decide
theorem test_wf_read_too_large : Instr.wellFormed (.read none (some 0x10000)) = false := by decide
theorem test_wf_write_absent : Instr.wellFormed (.write (some 1) none) = false := by decide
theorem test_wf_write_too_large : Instr.wellFormed (.write none (some 0x10000)) = false := by decide
theorem test_wf_rol_absent : Instr.wellFormed (.rol none none) = false := by decide
theorem test_wf_rol_negative : Instr.wellFormed (.rol none (some (-1))) = false := by decide
theorem test_not_canonical_load : Instr.canonical (.load (some 5) (some 99999)) = false := by decide
theorem test_not_canonical_read : Instr.canonical (.read (some (-7)) (some 1)) = false := by decide

/-! ### Decoding: each constructor's word, bit 31 or 23 first, from the patterns of 30_encoding.md R43 -/

/-- `load`: 00, the 23 bits of const = 5, 0011111 (R39; bytes of S1). -/
theorem test_decode_load : decodeTableWord 32 0b00_00000000000000000000101_0011111 = some (.load (some 5) none) := by decide
/-- `read`: 0, the 16 bits of addr = 0x1234, 1111001 (R40; table 2.2). -/
theorem test_decode_read : decodeTableWord 24 0b0_0001001000110100_1111001 = some (.read none (some 0x1234)) := by decide
/-- `write`: 0, the 16 bits of addr = 0xBEEF, 0011010 (R40; table 2.2). -/
theorem test_decode_write : decodeTableWord 24 0b0_1011111011101111_0011010 = some (.write none (some 0xBEEF)) := by decide
/-- `rol`: 0, the 16 bits of addr = 10, 0001000 (R40; S2). -/
theorem test_decode_rol : decodeTableWord 24 0b0_0000000000001010_0001000 = some (.rol none (some 10)) := by decide
/-- Bit 31 of a 4-byte instruction set (R45, item 2). -/
theorem test_decode_load_reserved : decode [0x1F, 0x00, 0x00, 0x80] = .refused (.reservedBitsSet .load) := by decide
/-- Bit 23 of a 3-byte instruction set (R45, item 3). -/
theorem test_decode_rol_reserved : decode [0x08, 0x00, 0x80] = .refused (.reservedBitsSet .rol) := by decide
/-- Opcode 0 is in no row (R45, item 1). -/
theorem test_decode_zero : decode [0x00, 0x00, 0x00] = .refused (.unknownOpcode 0) := by decide
/-- A 3-byte opcode in a 32-bit word (R45, last item). -/
theorem test_decode_wrong_length : decodeTableWord 32 0x00000508 = none := by decide
/-- A 4-byte opcode in a 24-bit word (R45, last item). -/
theorem test_decode_load_in_24_bits : decodeTableWord 24 0x29F = none := by decide
theorem test_decode_truncated : decode [0x1F, 0x00, 0x00] = .refused .truncated := by decide
/-- The encoder on the vectors `load 0x123456`, `read 0x1234`, `write 0xBEEF`, `rol 0xFF` (tables 2.1, 2.2). -/
theorem test_encode :
    encode (.load (some 0x123456) none) = [0x1F, 0x2B, 0x1A, 0x09] ∧ encode (.read none (some 0x1234)) = [0x79, 0x1A, 0x09] ∧
    encode (.write none (some 0xBEEF)) = [0x9A, 0x77, 0x5F] ∧ encode (.rol none (some 0xFF)) = [0x88, 0x7F, 0x00] := by decide
/-- P8's image parsed back, as the spec walks it. -/
theorem test_parse_P8 :
    parseImage [0xF9, 0, 0, 0x1F, 0x2B, 0x1A, 0x09, 0x79, 0x1A, 0x09] =
      some [.read none (some 1), .load (some 0x123456) none, .read none (some 0x1234)] := by decide
/-- Table 2.5. -/
theorem test_unpack : unpack [0x9F, 0xFF, 0xFF, 0x3F] = (31, 8388607) ∧ unpack [0x1A, 0x1A, 0x09] = (26, 4660) := by decide

/-! ### ENC and PACK -/

/-- Table 2.3. -/
theorem test_enc_case_sensitive : enc { op := "LOAD", const := some 5 } = .error (.unknownOperation "LOAD") := by decide
theorem test_enc_not_trimmed : enc { op := "load ", const := some 5 } = .error (.unknownOperation "load ") := by decide
theorem test_enc_wrong_field_only : enc { op := "write", const := some 1 } = .error (.missingOperand .addr) := by decide
theorem test_enc_ignored_field :
    enc { op := "load", const := some 0x800000, addr := some 1 } = .error (.operandOutOfRange 8388608 .const 23) := by decide
/-- Table 2.4: PACK does not check the pairing; its refused rows and their accepted neighbour. -/
theorem test_pack_pairing : pack ⟨31, 5, 3⟩ = .ok [0x9F, 0x02, 0x00] := by decide
theorem test_pack_largest : pack ⟨127, 0x7FFFFF, 4⟩ = .ok [0xFF, 0xFF, 0xFF, 0x3F] := by decide
theorem test_pack_refused : pack ⟨8, 0x10000, 3⟩ = .refused := by decide
theorem test_pack_neighbour : pack ⟨8, 0xFFFF, 3⟩ = .ok [0x88, 0xFF, 0x7F] := by decide
theorem test_pack_size_first : pack ⟨0, 0, 5⟩ = .error (.invalidInstructionSize 5) := by decide

/-! ### The meanings, one step each on a small state -/

/-- A run in progress: one `read` assembled, `off = 3`, and a schedule. -/
def mid (input : List Event) : State :=
  { State.reset with pos := 1, off := 3, emitted := [0xF9, 0, 0], input := input }

/-- The state after the step, or reset where the step gives none. -/
def after (o : Host.Outcome State Fault Refusal) : State :=
  match o with
  | .next t => t
  | .fault _ => .reset
  | .refused _ => .reset

/-- P8, second row: the 4-byte instruction at offset 3. -/
theorem test_step_load :
    let t := after (step (mid [.instr { op := "load", const := some 0x123456 }]))
    t.emitted = [0xF9, 0, 0, 0x1F, 0x2B, 0x1A, 0x09] ∧ t.off = 7 ∧ t.pos = 2 := by decide
theorem test_step_load_missing :
    let t := after (step (mid [.instr { op := "load", addr := some 7 }]))
    t.status = .aborted ∧ t.err = .error (.missingOperand .const) ∧ t.pos = 1 ∧ t.off = 3 := by decide
/-- Table 2.2. -/
theorem test_step_read :
    (after (step (mid [.instr { op := "read", addr := some 0x8000, const := some (-5) }]))).emitted =
      [0xF9, 0, 0, 0x79, 0x00, 0x40] := by decide
theorem test_step_read_negative :
    (after (step (mid [.instr { op := "read", addr := some (-1) }]))).err =
      .error (.operandOutOfRange (-1) .addr 16) := by decide
theorem test_step_write :
    (after (step (mid [.instr { op := "write", addr := some 0x100 }]))).emitted =
      [0xF9, 0, 0, 0x1A, 0x80, 0x00] := by decide
theorem test_step_write_too_large :
    (after (step (mid [.instr { op := "write", addr := some 0x10000 }]))).err =
      .error (.operandOutOfRange 65536 .addr 16) := by decide
theorem test_step_rol :
    (after (step (mid [.instr { op := "rol", addr := some 0xFFFF }]))).emitted =
      [0xF9, 0, 0, 0x88, 0xFF, 0x7F] := by decide
theorem test_step_rol_missing :
    (after (step (mid [.instr { op := "rol" }]))).err = .error (.missingOperand .addr) := by decide
/-- S7. -/
theorem test_step_unknown :
    let t := after (step (mid [.instr { op := "jmp", addr := some 0x10000 }]))
    t.err = .error (.unknownOperation "jmp") ∧ t.status = .aborted ∧ t.emitted = [0xF9, 0, 0] := by decide
theorem test_step_end :
    (after (step (mid [.endProgram]))).result = some (.ok [0xF9, 0, 0]) := by decide
/-- 70_reset_and_hazards.md R101. -/
theorem test_step_reset :
    let t := after (step (mid [.reset]))
    t.pos = 0 ∧ t.off = 0 ∧ t.emitted = [] ∧ t.past = [{ bytes := [0xF9, 0, 0], status := .run }] := by decide
theorem test_step_bench_pack :
    (after (step (mid [.benchPack ⟨42, 0x5555, 3⟩]))).bench = [.packed [0xAA, 0xAA, 0x2A]] := by decide
/-- The word of `load 5` placed for the next step runs it: S1's bytes. -/
theorem test_fetch_word :
    (after (step (State.reset.withFetchWord 32 0x29F))).emitted = [0x9F, 0x02, 0x00, 0x00] := by decide
theorem test_fetch_word_short :
    (after (step (State.reset.withFetchWord 24 0x508))).emitted = [0x08, 0x05, 0x00] := by decide

/-! ### Programs (95_test_vectors.md Part 3) -/

theorem test_assemble_P1 :
    assemble [{ op := "load", const := some 5 }, { op := "write", addr := some 0x100 }, { op := "read", addr := some 0x100 },
      { op := "rol", addr := some 1 }] =
      .ok [0x9F, 0x02, 0, 0, 0x1A, 0x80, 0, 0x79, 0x80, 0, 0x88, 0, 0] := by decide
theorem test_assemble_P4 :
    assemble [{ op := "load", const := some 1 }, { op := "read", addr := some 0x10000 }, { op := "jmp" }] =
      .error 1 (.operandOutOfRange 65536 .addr 16) := by decide
theorem test_assemble_P6 : assemble [] = .ok [] := by decide

/-! ### Ports (95_test_vectors.md, table 2.3, "Port-level form") -/

theorem test_port_name_load : nameToPort 8 "load" = 0x0000000064616F6C := by decide
theorem test_port_name_back : portToName 8 0x0000006574697277 = some "write" := by decide
theorem test_port_name_refused : portToName 8 0x00000000006C006F = none := by decide
/-- `read -1` on the ports. -/
def readMinusOne : EncIn Params.default :=
  { opName := 0x0000000064616572, constPresent := false, constVal := 0, addrPresent := true, addrVal := 0xFFFFFFFF }
theorem test_ports_read_minus_one :
    (encPorts Params.default readMinusOne).map (fun y => (y.encOk, y.errCode, y.errValue, y.errField, y.errBits)) =
      some (false, 2, 0xFFFFFFFF, 1, 16) := by decide
/-- `rol 10` on the ports. -/
def rolTen : EncIn Params.default :=
  { opName := 0x00000000006C6F72, constPresent := false, constVal := 0, addrPresent := true, addrVal := 10 }
theorem test_ports_rol_ten :
    (corePorts Params.default rolTen).map (fun y => (y.enc.irOpcode, y.enc.irOperand, y.enc.irByteWidth, y.pack.outNbytes)) =
      some (8, 10, 3, 3) := by decide
theorem test_ports_rol_ten_bytes :
    (corePorts Params.default rolTen).map (fun y =>
      (y.pack.packOk, y.errCode, [y.pack.outByte0, y.pack.outByte1, y.pack.outByte2, y.pack.outByte3])) =
      some (true, 0, [0x08, 0x05, 0, 0]) := by decide

/-! ### Witnesses: for every statement with hypotheses, concrete values that meet them together, at boundaries and for each
clause -/

/-- P2's program and its instructions' bytes. -/
def progP2 : List SymInstr := [{ op := "write", addr := some 0 }, { op := "load", const := some 0 }]
def bytesP2 : List (List Byte) := [[0x1A, 0, 0], [0x1F, 0, 0, 0]]
def jmp : SymInstr := { op := "jmp", const := some (-1) }
/-- The same run in progress, already over. -/
def ended (status : Status) (input : List Event) : State :=
  { mid input with status := status, err := .error (.missingOperand .addr) }

theorem witness_DecodeEncodeRoundTrip :
    (∀ i ∈ [Instr.load (some 0) none, .load (some 0x7FFFFF) none, .read none (some 0xFFFF), .write none (some 0),
      .rol none (some 0xFFFF)], i.wellFormed = true ∧ i.canonical = true) ∧
    Instr.wellFormed (.load (some 5) (some (-1))) = true := by decide
theorem witness_DecodeYieldsOnlyEncodings :
    decode [0x08, 0x05, 0x00, 0xFF] = .instr (.rol none (some 10)) [0xFF] := by decide
theorem witness_DecodeRefusesNeverProduced :
    ((0x1E : Byte).toNat % 128 ≠ 31 ∧ (0x1E : Byte).toNat % 128 ≠ 121 ∧ (0x1E : Byte).toNat % 128 ≠ 26 ∧
      (0x1E : Byte).toNat % 128 ≠ 8) ∧
    ((0x9F : Byte).toNat % 128 = 31 ∧ 0x40 ≤ (0x40 : Byte).toNat) ∧
    (0x80 ≤ (0x80 : Byte).toNat ∧ (0xF9 : Byte).toNat % 128 = 121 ∧ (0x1A : Byte).toNat % 128 = 26 ∧
      (0x88 : Byte).toNat % 128 = 8) ∧
    0x29F % 128 = 31 ∧ 0x508 % 128 = 8 ∧ 0x79 % 128 = 121 ∧ 0x1A % 128 = 26 := by decide
theorem witness_UnpackRecoversPacked :
    wfIR ⟨127, 0x7FFFFF, 4⟩ = true ∧ wfIR ⟨0, 0, 3⟩ = true ∧ wfIR ⟨127, 0xFFFF, 3⟩ = true := by decide
theorem witness_ImageParsesBack : assemble progP2 = .ok [0x1A, 0, 0, 0x1F, 0, 0, 0] := by decide
theorem witness_TableProducesFourOpcodes :
    enc { op := "rol", addr := some 0xFFFF } = .ok ⟨8, 0xFFFF, 3⟩ ∧ 0xFFFF ≤ 0xFFFF := by decide
theorem witness_EncLoadRule :
    (∃ c : Option Int, c = none) ∧ (∃ c : Option Int, ∃ v : Int, c = some v ∧ 0x7FFFFF < v) ∧
    (∃ c : Option Int, ∃ v : Int, c = some v ∧ ¬(v < 0 ∨ 0x7FFFFF < v)) :=
  ⟨⟨none, rfl⟩, ⟨some 0x800000, 0x800000, rfl, by decide⟩, ⟨some 0x7FFFFF, 0x7FFFFF, rfl, by decide⟩⟩
/-- For `read`, `write` and `rol` alike. -/
theorem witness_EncShortRules :
    (∃ a : Option Int, a = none) ∧ (∃ a : Option Int, ∃ v : Int, a = some v ∧ 0xFFFF < v) ∧
    (∃ a : Option Int, ∃ v : Int, a = some v ∧ v < 0) ∧
    (∃ a : Option Int, ∃ v : Int, a = some v ∧ ¬(v < 0 ∨ 0xFFFF < v)) :=
  ⟨⟨none, rfl⟩, ⟨some 0x10000, 0x10000, rfl, by decide⟩, ⟨some (-1), -1, rfl, by decide⟩,
    ⟨some 0xFFFF, 0xFFFF, rfl, by decide⟩⟩
theorem witness_UnknownNameAbortsProgram :
    jmp.op ≠ "load" ∧ jmp.op ≠ "read" ∧ jmp.op ≠ "write" ∧ jmp.op ≠ "rol" ∧
    progP2.map assembleOne = bytesP2.map PackResult.ok := by decide
theorem witness_EncodedWidths :
    enc { op := "load", const := some 0xFFFF } = .ok ⟨31, 0xFFFF, 4⟩ ∧
    enc { op := "read", addr := some 0xFFFF } = .ok ⟨121, 0xFFFF, 3⟩ := by decide
theorem witness_PackBytesOfValue :
    wfIR ⟨31, 5, 4⟩ = true ∧ pack ⟨31, 5, 4⟩ = .ok [0x9F, 0x02, 0, 0] ∧ 3 < [0x9F, 0x02, 0, (0 : Byte)].length := by decide
theorem witness_PackSizeCheck :
    (⟨31, 5, 2⟩ : IR).byteWidth ≠ 3 ∧ (⟨31, 5, 2⟩ : IR).byteWidth ≠ 4 ∧ (⟨31, 5, 5⟩ : IR).byteWidth ≠ 4 := by decide
theorem witness_PackRefusesIllFormed :
    wfIR ⟨8, 0x10000, 3⟩ = false ∧ wfIR ⟨128, 0, 4⟩ = false ∧ wfIR ⟨8, -1, 4⟩ = false ∧
    (mid [.benchPack ⟨8, 0x10000, 3⟩]).input = [.benchPack ⟨8, 0x10000, 3⟩] := by decide
theorem witness_PackZeroIsOrdinary :
    enc { op := "load", const := some 0 } = .ok ⟨31, 0, 4⟩ ∧ (mid [.benchPack ⟨0, 0, 3⟩]).input = [.benchPack ⟨0, 0, 3⟩] ∧
    (mid [.benchPack ⟨0, 0, 4⟩]).input = [.benchPack ⟨0, 0, 4⟩] := by decide
theorem witness_PackValueLaws : 127 < 128 ∧ 0x7FFFFF ≤ 0x7FFFFF ∧ 0xFFFF ≤ 0xFFFF := by decide
theorem witness_SerializeLossless : 0xFFFFFF < 256 ^ 3 ∧ 0 < 256 ^ 0 := by decide
/-- For `LoadAssembles`, and for the three Short-format completions. -/
theorem witness_Assembles :
    (mid []).status = .run ∧ (0 : Int) ≤ 0 ∧ (0 : Int) ≤ 0x7FFFFF ∧ (0x7FFFFF : Int) ≤ 0x7FFFFF ∧ (0xFFFF : Int) ≤ 0xFFFF := by
  decide
theorem witness_OperandErrorsAbort :
    (mid []).status = .run ∧ ((-1 : Int) < 0) ∧ ((0x7FFFFF : Int) < 0x800000) ∧ ((0xFFFF : Int) < 0x10000) ∧
    Op.read ≠ .load ∧ Op.write ≠ .load ∧ Op.rol ≠ .load := by decide
theorem witness_ExecFrame :
    (∃ t, exec (.load (some 0x7FFFFF) none) (mid []) = .next t) ∧ (∃ t, exec (.rol none none) (mid []) = .next t) ∧
    (∃ t, exec (.read none (some 1)) (ended .done []) = .next t) ∧ (mid []).off = (mid []).emitted.length ∧
    Instr.wellFormed (.load (some 0x7FFFFF) none) = true ∧ Instr.wellFormed (.rol none none) = false ∧
    (ended .done []).status ≠ .run :=
  ⟨⟨_, rfl⟩, ⟨_, rfl⟩, ⟨_, rfl⟩, by decide⟩
theorem witness_EncodingIndependentOfState :
    (mid []).status = .run ∧ State.reset.status = .run ∧ (∃ t, exec (.write none (some 0xFFFF)) (mid []) = .next t) ∧
    (∃ t, exec (.write none (some 0xFFFF)) State.reset = .next t) :=
  ⟨rfl, rfl, ⟨_, rfl⟩, ⟨_, rfl⟩⟩
theorem witness_StepRunsDecodedInstruction :
    (mid [.instr { op := "rol", addr := some 10 }]).input = [.instr { op := "rol", addr := some 10 }] ∧
    instrOf { op := "rol", addr := some 10 } = some (.rol none (some 10)) ∧
    decodeTableWord 24 0x508 = some (.rol none (some 10)) := by decide
theorem witness_StepIsEncThenPack :
    (mid [.instr jmp]).input = [.instr jmp] ∧ (mid [.instr jmp]).status = .run ∧
    enc jmp = .error (.unknownOperation "jmp") ∧ enc { op := "load", const := some 5 } = .ok ⟨31, 5, 4⟩ := by decide
theorem witness_NotEnabledChangesNothing :
    (ended .aborted [.instr jmp]).status ≠ .run ∧ (ended .aborted [.instr jmp]).input = [.instr jmp] ∧
    (ended .done [.endProgram]).status ≠ .run ∧ (ended .done [.endProgram]).input = [.endProgram] := by decide
theorem witness_EndCompletesRun :
    (mid [.endProgram]).input = [.endProgram] ∧ (mid [.endProgram]).status = .run := by decide
theorem witness_ResetAtAnyTime :
    (ended .aborted [.reset, .instr jmp]).input = [.reset, .instr jmp] := by decide
theorem witness_StickyUntilReset :
    (ended .aborted [.instr jmp]).status ≠ .run ∧ (∀ rest, (ended .aborted [.instr jmp]).input ≠ .reset :: rest) ∧
    (∃ t, step (ended .aborted [.instr jmp]) = .next t) ∧ (∃ t, step (ended .done [.benchEnc jmp]) = .next t) :=
  ⟨by decide, fun _ h => by simp [ended, mid] at h, ⟨_, rfl⟩, ⟨_, rfl⟩⟩
theorem witness_BlocksUsedAlone :
    (ended .aborted [.benchEnc jmp]).input = [.benchEnc jmp] ∧
    (mid [.benchPack ⟨0, 0, 3⟩]).input = [.benchPack ⟨0, 0, 3⟩] ∧ wfIR ⟨0, 0, 3⟩ = true ∧
    (mid [.benchPack ⟨31, 5, 7⟩]).input = [.benchPack ⟨31, 5, 7⟩] ∧ (⟨31, 5, 7⟩ : IR).byteWidth ≠ 3 ∧
    (⟨31, 5, 7⟩ : IR).byteWidth ≠ 4 := by decide
theorem witness_SequencerInvariantKept :
    seqInv (mid [.instr { op := "load", const := some 5 }]) = true ∧
    (∃ t, step (mid [.instr { op := "load", const := some 5 }]) = .next t) :=
  ⟨by decide, ⟨_, rfl⟩⟩
theorem witness_CountersBoundEachOther : seqInv (mid []) = true ∧ seqInv (ended .aborted []) = true := by decide
theorem witness_AssembleFirstFailure :
    progP2.map assembleOne = bytesP2.map PackResult.ok ∧ assembleOne jmp = .error (.unknownOperation "jmp") ∧
    enc jmp = .error (.unknownOperation "jmp") ∧ enc { op := "load", const := some 5 } = .ok ⟨31, 5, 4⟩ := by decide
theorem witness_ImageLayout :
    assemble progP2 = .ok [0x1A, 0, 0, 0x1F, 0, 0, 0] ∧ progP2[1]? = some { op := "load", const := some 0 } := by decide
theorem witness_AnyOrderAgrees : (positioned progP2).reverse.Perm (positioned progP2) := List.reverse_perm _
theorem witness_LanesAgree : 1 ≤ Params.default.nLanes := by decide
theorem witness_SequencerRefinesAssemble :
    (mid (schedule progP2 ++ [.reset])).status = .run ∧
    (mid (schedule progP2 ++ [.reset])).input = schedule progP2 ++ [.reset] ∧
    assemble progP2 = .ok [0x1A, 0, 0, 0x1F, 0, 0, 0] ∧
    assemble (progP2 ++ [jmp]) = .error 2 (.unknownOperation "jmp") := by decide
theorem witness_RunResultIsAssemble :
    let s := State.reset.withInput (schedule progP2 ++ [.reset])
    s.status = .run ∧ s.pos = 0 ∧ s.emitted = [] ∧ s.input = schedule progP2 ++ [.reset] := by decide
theorem witness_RepeatAfterReset :
    let s := State.reset.withInput (schedule [jmp] ++ .reset :: schedule [jmp])
    s.status = .run ∧ s.pos = 0 ∧ s.emitted = [] ∧ s.input = schedule [jmp] ++ .reset :: schedule [jmp] := by decide
theorem witness_BoundedCountersAgree :
    let load5 : Event := .instr { op := "load", const := some 5 }
    step (mid [load5]) = .next (after (step (mid [load5]))) ∧
    countersFit Params.default (after (step (mid [load5]))) = true ∧
    countersFit { Params.default with posw := 1 } (after (step (mid [load5]))) = false :=
  ⟨rfl, by decide, by decide⟩
theorem witness_PortsCarryRecords :
    Params.default.Valid ∧ (∃ x, toPorts Params.default { op := "write", addr := some (-1) } = some x) :=
  ⟨by decide, ⟨_, rfl⟩⟩
/-- Port contents for each answer of ENC: in each the field that is absent has a value port that is not 0. -/
def portsOf (name : BitVec 64) (constPresent : Bool) (constVal : BitVec 32) : EncIn Params.default :=
  { opName := name, constPresent := constPresent, constVal := constVal, addrPresent := false, addrVal := 0xFFFFFFFF }
/-- For `EncPortsAgree` and `CorePortsAgree`. -/
theorem witness_EncPortsAgree :
    Params.default.Valid ∧
    ofPorts _ (portsOf 0x64616F6C true 0x7FFFFF) = some { op := "load", const := some 0x7FFFFF } ∧
    enc { op := "load", const := some 0x7FFFFF } = .ok ⟨31, 0x7FFFFF, 4⟩ ∧
    ofPorts _ (portsOf 0x706D6A false 5) = some { op := "jmp" } ∧ enc { op := "jmp" } = .error (.unknownOperation "jmp") ∧
    ofPorts _ (portsOf 0x64616F6C true 0x800000) = some { op := "load", const := some 0x800000 } ∧
    enc { op := "load", const := some 0x800000 } = .error (.operandOutOfRange 0x800000 .const 23) ∧
    ofPorts _ (portsOf 0x6C6F72 true 1) = some { op := "rol", const := some 1 } ∧
    enc { op := "rol", const := some 1 } = .error (.missingOperand .addr) := by decide
theorem witness_CorePortsAgree :
    assembleOne { op := "load", const := some 0x7FFFFF } = .ok [0x9F, 0xFF, 0xFF, 0x3F] ∧
    assembleOne { op := "rol", const := some 1 } = .error (.missingOperand .addr) := by decide
theorem witness_PackPortsAgree :
    let at3 : PackIn Params.default := { irOpcode := 8, irOperand := 0xFFFF, irByteWidth := 3 }
    let over3 : PackIn Params.default := { irOpcode := 8, irOperand := 0x10000, irByteWidth := 3 }
    let at4 : PackIn Params.default := { irOpcode := 127, irOperand := 0x7FFFFF, irByteWidth := 4 }
    let at7 : PackIn Params.default := { irOpcode := 0, irOperand := 0, irByteWidth := 7 }
    (at3.irByteWidth.toNat = 3 ∧ at3.irOperand.toNat ≤ 0xFFFF) ∧ (over3.irByteWidth.toNat = 3 ∧ 0xFFFF < over3.irOperand.toNat) ∧
      at4.irByteWidth.toNat = 4 ∧ at7.irByteWidth.toNat ≠ 3 ∧ at7.irByteWidth.toNat ≠ 4 := by decide

end Sys2Proof.Tests
end

section
/-! SUPPORT. The Operation Table's lookup (10_state.md R9, R11) and ENC and PACK as read through it. -/

namespace Sys2Proof

/-! ### The lookup -/

/-- Each row is found under its own name. -/
theorem opRow_of_mem {r : OpRow} (h : r ∈ opTable) : opRow r.name = some r := by
  have key : ∀ r ∈ opTable, opRow r.name = some r := by decide
  exact key r h

/-- The lookup finds the rows of the table under their names, and nothing else. -/
theorem opRow_eq_some_iff (name : String) (r : OpRow) : opRow name = some r ↔ r ∈ opTable ∧ r.name = name := by
  constructor
  · intro h
    exact ⟨List.mem_of_find?_eq_some h, of_decide_eq_true (List.find?_some h :)⟩
  · rintro ⟨hr, rfl⟩
    exact opRow_of_mem hr

/-- An opcode is produced exactly when a row of the table holds it. -/
theorem opTableLookup_eq_some_iff (name : String) (o : Opcode) :
    opTableLookup name = some o ↔ ∃ r ∈ opTable, r.name = name ∧ r.opcode = o := by
  simp only [opTableLookup, Option.map_eq_some_iff, opRow_eq_some_iff, and_assoc]

/-- The opcode column of the table. -/
theorem exists_opTable_opcode_iff (o : Opcode) :
    (∃ r ∈ opTable, r.opcode = o) ↔ (o = 8 ∨ o = 26 ∨ o = 31 ∨ o = 121) := by
  constructor
  · rintro ⟨r, hr, rfl⟩
    have column : ∀ r ∈ opTable, r.opcode = 8 ∨ r.opcode = 26 ∨ r.opcode = 31 ∨ r.opcode = 121 := by decide
    exact column r hr
  · rintro (rfl | rfl | rfl | rfl) <;> decide

theorem exists_opTableLookup_iff (o : Opcode) :
    (∃ name, opTableLookup name = some o) ↔ (o = 8 ∨ o = 26 ∨ o = 31 ∨ o = 121) := by
  rw [← exists_opTable_opcode_iff]
  constructor
  · rintro ⟨name, h⟩
    obtain ⟨r, hr, -, ho⟩ := (opTableLookup_eq_some_iff name o).1 h
    exact ⟨r, hr, ho⟩
  · rintro ⟨r, hr, ho⟩
    exact ⟨r.name, (opTableLookup_eq_some_iff r.name o).2 ⟨r, hr, rfl, ho⟩⟩

namespace Machine

/-! ### ENC through the table -/

/-- On a name of the table ENC is the operand stage, with the row's opcode and the operation's format (40_encoder.md R50, R51). -/
theorem enc_of_opRow (i : SymInstr) (r : OpRow) (h : opRow i.op = some r) :
    enc i = encodeOperand r.opcode (formatOfOp r.op) i.const i.addr := by
  simp only [enc, opTableLookup, formatOf, h, Option.map_some]

/-- On any other name ENC answers `UnknownOperation` (40_encoder.md R50). -/
theorem enc_of_opRow_none (i : SymInstr) (h : opRow i.op = none) : enc i = .error (.unknownOperation i.op) := by
  simp only [enc, opTableLookup, formatOf, h, Option.map_none]

/-- Everything a successful ENC says (40_encoder.md R50 to R55). -/
theorem enc_ok (i : SymInstr) (ir : IR) (h : enc i = .ok ir) :
    ∃ r v, opRow i.op = some r ∧ selectField (fieldOf (formatOfOp r.op)) i.const i.addr = some v ∧
      inRange (formatOfOp r.op) v = true ∧
      ir = { opcode := (r.opcode.toNat : Int), operand := v, byteWidth := (formatBytes (formatOfOp r.op) : Int) } := by
  cases hr : opRow i.op with
  | none =>
    rw [enc_of_opRow_none i hr] at h
    cases h
  | some r =>
    rw [enc_of_opRow i r hr] at h
    obtain ⟨-, he⟩ | ⟨v, hv, hin, he⟩ | ⟨v, -, -, he⟩ :=
      encodeOperand_cases r.opcode (formatOfOp r.op) i.const i.addr <;> rw [he] at h <;> cases h
    exact ⟨r, v, rfl, hv, hin, rfl⟩

/-- The opcode of ENC's IR is the one the Operation Table gives for the name. -/
theorem enc_ok_opcode (i : SymInstr) (ir : IR) (h : enc i = .ok ir) :
    ∃ o : Opcode, opTableLookup i.op = some o ∧ ir.opcode = (o.toNat : Int) := by
  obtain ⟨r, v, hr, -, -, rfl⟩ := enc_ok i ir h
  exact ⟨r.opcode, by simp only [opTableLookup, hr, Option.map_some], rfl⟩

/-! ### PACK on every opcode -/

/-- PACK accepts every 7-bit opcode with every operand in the format's range, in either format (10_state.md R11). -/
theorem pack_accepts_opcode (o : Opcode) (f : Format) (v : Int) (h : inRange f v = true) :
    ∃ bs, pack { opcode := (o.toNat : Int), operand := v, byteWidth := (formatBytes f : Int) } = .ok bs :=
  ⟨_, pack_of_wfIR _ (wfIR_of_inRange o f v h)⟩

end Machine

end Sys2Proof
end

section
/-! PROOF of the statement of 10_state.md R11. -/

namespace Sys2Proof.Proofs

open Sys2Proof.Machine

/-- Settles O7: the opcodes are the table's column, ENC's opcode is the lookup's, and WF_IR is all PACK needs of an IR. -/
theorem tableProducesFourOpcodes : Obligations.TableProducesFourOpcodes := by
  refine ⟨exists_opTableLookup_iff, ?enc, ?pack⟩
  case enc =>
    intro i ir h
    obtain ⟨o, ho, hop⟩ := enc_ok_opcode i ir h
    rw [hop]
    rcases (exists_opTableLookup_iff o).1 ⟨i.op, ho⟩ with rfl | rfl | rfl | rfl <;> decide
  case pack =>
    intro o v hv
    have short : inRange .short (v : Int) = true := (inRange_iff _ _).2 ⟨by omega, by simp only [maxOperand]; omega⟩
    have load : inRange .load (v : Int) = true := (inRange_iff _ _).2 ⟨by omega, by simp only [maxOperand]; omega⟩
    exact ⟨pack_accepts_opcode o .short v short, pack_accepts_opcode o .load v load⟩

end Sys2Proof.Proofs
end

section
/-! SUPPORT. Bytes back to the value they serialize, and an IR that satisfies WF_IR as opcode, format and operand
(30_encoding.md R37, R48; 41_packer.md R65 to R67). -/

namespace Sys2Proof

/-- Masking the low 7 bits and shifting them out, as arithmetic (30_encoding.md R48). -/
theorem unpack_eq (bs : List Byte) : unpack bs = (leValue bs % 128, leValue bs / 128) :=
  Prod.ext (Nat.and_two_pow_sub_one_eq_mod _ 7) (Nat.shiftRight_eq_div_pow _ 7)

namespace Machine

/-- The bytes of a value hold what of it fits them (41_packer.md R67). -/
theorem leValue_serialize (n v : Nat) : leValue (serialize v n) = v % 256 ^ n := by
  induction n generalizing v with
  | zero => rw [serialize_zero, leValue, Nat.pow_zero, Nat.mod_one]
  | succ n ih =>
    have byte0 : (valueByte v 0).toNat = v % 256 := by rw [valueByte, BitVec.toNat_ofNat, Nat.pow_zero, Nat.div_one]
    rw [serialize_succ, leValue, ih, byte0, Nat.pow_succ', Nat.mod_mul]

/-- WF_IR says that the fields are a 7-bit opcode, an operand in a format's range and that format's size (10_state.md R17). -/
theorem wfIR_iff_exists_inRange (ir : IR) :
    wfIR ir = true ↔ ∃ (o : Opcode) (f : Format) (v : Int), inRange f v = true ∧
      ir = { opcode := (o.toNat : Int), operand := v, byteWidth := (formatBytes f : Int) } := by
  constructor
  · intro h
    obtain ⟨ho0, ho, hv0, hw⟩ := (wfIR_iff ir).1 h
    have hop : ((BitVec.ofInt 7 ir.opcode).toNat : Int) = ir.opcode := ofInt_toNat 7 ir.opcode ho0 (by omega)
    obtain ⟨hw, hv⟩ | ⟨hw, hv⟩ := hw
    · exact ⟨_, .short, ir.operand, (inRange_iff _ _).2 ⟨hv0, hv⟩, by rw [hop, formatBytes, Nat.cast_ofNat, ← hw]⟩
    · exact ⟨_, .load, ir.operand, (inRange_iff _ _).2 ⟨hv0, hv⟩, by rw [hop, formatBytes, Nat.cast_ofNat, ← hw]⟩
  · rintro ⟨o, f, v, hv, rfl⟩
    exact wfIR_of_inRange o f v hv

/-- The packed value of an operand in range fits the format's bytes (30_encoding.md R38). -/
theorem packValue_lt_of_inRange (o : Opcode) (f : Format) (v : Int) (h : inRange f v = true) :
    packValue v.toNat o.toNat < 256 ^ formatBytes f := by
  obtain ⟨h0, hm⟩ := (inRange_iff f v).1 h
  have ho : o.toNat < 128 := o.isLt
  rw [packValue_of_lt]
  cases f with
  | load => simp only [formatBytes, maxOperand] at *; omega
  | short => simp only [formatBytes, maxOperand] at *; omega

/-- Unpacking the bytes of a packed value gives opcode and operand back (30_encoding.md R48). -/
theorem unpack_serialize_packValue (o : Opcode) (f : Format) (v : Int) (h : inRange f v = true) :
    unpack (serialize (packValue v.toNat o.toNat) (formatBytes f)) = (o.toNat, v.toNat) := by
  have ho : o.toNat < 128 := o.isLt
  rw [unpack_eq, leValue_serialize, Nat.mod_eq_of_lt (packValue_lt_of_inRange o f v h), packValue_of_lt]
  exact Prod.ext (by dsimp only; omega) (by dsimp only; omega)

/-- The name column of the table against the formats: `load` alone has the Load format (10_state.md R13). -/
theorem name_and_format_of_opRow (name : String) (r : OpRow) (h : opRow name = some r) :
    (name = "load" ∧ formatOfOp r.op = .load) ∨
    ((name = "read" ∨ name = "write" ∨ name = "rol") ∧ formatOfOp r.op = .short) := by
  obtain ⟨hr, rfl⟩ := (opRow_eq_some_iff name r).1 h
  have rows : ∀ r ∈ opTable, (r.name = "load" ∧ formatOfOp r.op = .load) ∨
      ((r.name = "read" ∨ r.name = "write" ∨ r.name = "rol") ∧ formatOfOp r.op = .short) := by decide
  exact rows r hr

/-- ENC's IRs satisfy WF_IR, with the size of the format that the name's row has (10_state.md R17). -/
theorem enc_ok_wfIR (i : SymInstr) (ir : IR) (h : enc i = .ok ir) :
    wfIR ir = true ∧ ∃ r, opRow i.op = some r ∧ ir.byteWidth = (formatBytes (formatOfOp r.op) : Int) := by
  obtain ⟨r, v, hr, -, hv, rfl⟩ := enc_ok i ir h
  exact ⟨wfIR_of_inRange r.opcode _ v hv, r, hr, rfl⟩

/-- PACK gives an IR that satisfies WF_IR `byteWidth` bytes (41_packer.md R67). -/
theorem pack_length_of_wfIR (ir : IR) (h : wfIR ir = true) :
    ∃ bs, pack ir = .ok bs ∧ (bs.length : Int) = ir.byteWidth := by
  have hw := (wfIR_iff ir).1 h
  exact ⟨_, pack_of_wfIR ir h, by rw [serialize_length]; omega⟩

end Machine

end Sys2Proof
end

section
/-! PROOFS of the statements of 30_encoding.md R48 and R37. -/

namespace Sys2Proof.Proofs

open Sys2Proof.Machine

/-- Settles O5: the packed value of a valid IR fits its bytes, so they hold `operand * 128 + opcode`. -/
theorem unpackRecoversPacked : Obligations.UnpackRecoversPacked := by
  intro ir h
  obtain ⟨bs, hp, hlen⟩ := pack_length_of_wfIR ir h
  refine ⟨bs, hp, hlen, unpack_eq bs, ?_⟩
  obtain ⟨o, f, v, hv, rfl⟩ := (wfIR_iff_exists_inRange ir).1 h
  have hbs : serialize (packValue v.toNat o.toNat) (formatBytes f) = bs :=
    PackResult.ok.inj ((pack_of_wfIR _ h).symm.trans hp)
  rw [← hbs, unpack_serialize_packValue o f v hv]
  exact ⟨rfl, Int.toNat_of_nonneg ((inRange_iff f v).1 hv).1⟩

/-- Settles O13: the name's row fixes the format, the format fixes `byteWidth`, and PACK gives that many bytes. -/
theorem encodedWidths : Obligations.EncodedWidths := by
  intro i ir h
  obtain ⟨hwf, r, hr, hw⟩ := enc_ok_wfIR i ir h
  obtain ⟨bs, hp, hlen⟩ := pack_length_of_wfIR ir hwf
  refine ⟨bs, hp, ?_⟩
  obtain ⟨hname, hf⟩ | ⟨hname, hf⟩ := name_and_format_of_opRow i.op r hr <;> rw [hf, formatBytes] at hw
  · exact .inl ⟨hname, hw, by omega⟩
  · exact .inr ⟨hname, hw, by omega⟩

end Sys2Proof.Proofs
end

section
/-! SUPPORT. ENC's operand stage as equations, one for each of its answers, and ENC on a name of the table
(40_encoder.md R50 to R55). -/

namespace Sys2Proof.Machine

section
variable {o : Opcode} {f : Format} {c a : Option Int} {v : Int}

/-- Presence comes first (40_encoder.md R52). -/
theorem encodeOperand_of_absent (h : selectField (fieldOf f) c a = none) :
    encodeOperand o f c a = .error (.missingOperand (fieldOf f)) := by
  simp only [encodeOperand, h]

/-- The result construction (40_encoder.md R55). -/
theorem encodeOperand_of_inRange (h : selectField (fieldOf f) c a = some v) (hv : inRange f v = true) :
    encodeOperand o f c a = .ok { opcode := (o.toNat : Int), operand := v, byteWidth := (formatBytes f : Int) } := by
  simp only [encodeOperand, h, hv, if_true]

/-- The range error (40_encoder.md R53). -/
theorem encodeOperand_of_not_inRange (h : selectField (fieldOf f) c a = some v) (hv : ¬ inRange f v = true) :
    encodeOperand o f c a = .error (.operandOutOfRange v (fieldOf f) (opBits f)) := by
  simp only [encodeOperand, h, if_neg hv]

end

/-- What is not in range lies below 0 or above the format's greatest operand (40_encoder.md R53). -/
theorem not_inRange_iff (f : Format) (v : Int) : ¬ inRange f v = true ↔ v < 0 ∨ maxOperand f < v := by
  rw [inRange_iff, not_and_or, not_le, not_le]

/-- The operand stage in the form of the four operations' own rules (40_encoder.md R56 to R59). -/
theorem encodeOperand_rule (o : Opcode) (f : Format) (c a : Option Int) :
    (selectField (fieldOf f) c a = none → encodeOperand o f c a = .error (.missingOperand (fieldOf f))) ∧
    (∀ v : Int, selectField (fieldOf f) c a = some v →
      ((v < 0 ∨ maxOperand f < v) →
        encodeOperand o f c a = .error (.operandOutOfRange v (fieldOf f) (opBits f))) ∧
      (¬(v < 0 ∨ maxOperand f < v) →
        encodeOperand o f c a = .ok { opcode := (o.toNat : Int), operand := v, byteWidth := (formatBytes f : Int) })) := by
  refine ⟨encodeOperand_of_absent, fun v hv => ⟨fun out => ?outside, fun ins => ?inside⟩⟩
  case outside => exact encodeOperand_of_not_inRange hv ((not_inRange_iff f v).2 out)
  case inside => exact encodeOperand_of_inRange hv (not_not.1 (mt (not_inRange_iff f v).1 ins))

/-- ENC on the name of a row of the table is the operand stage with that row's opcode and format (40_encoder.md R50, R51). -/
theorem enc_name_of_mem_opTable {r : OpRow} (h : r ∈ opTable) (c a : Option Int) :
    enc { op := r.name, const := c, addr := a } = encodeOperand r.opcode (formatOfOp r.op) c a :=
  enc_of_opRow _ r (opRow_of_mem h)

end Sys2Proof.Machine
end

section
/-! PROOFS of the statements of 40_encoder.md R56 to R59. Each rule is the operand stage at its row of the Operation Table:
the row gives the first clause, the operand stage's rule the others. -/

namespace Sys2Proof.Proofs

open Sys2Proof.Machine

/-- Settles O8: the Load format reads `const`, 23 bits, 4 bytes. -/
theorem encLoadRule : Obligations.EncLoadRule := fun c a =>
  have row : { op := .load, name := "load", opcode := 31 } ∈ opTable := by decide
  ⟨(enc_name_of_mem_opTable row c a).symm, encodeOperand_rule 31 .load c a⟩

/-- Settles O9: the Short format reads `addr`, 16 bits, 3 bytes. -/
theorem encReadRule : Obligations.EncReadRule := fun c a =>
  have row : { op := .read, name := "read", opcode := 121 } ∈ opTable := by decide
  ⟨(enc_name_of_mem_opTable row c a).symm, encodeOperand_rule 121 .short c a⟩

/-- Settles O10: `read`'s rule with the opcode of `write`'s row. -/
theorem encWriteRule : Obligations.EncWriteRule := fun c a =>
  have row : { op := .write, name := "write", opcode := 26 } ∈ opTable := by decide
  ⟨(enc_name_of_mem_opTable row c a).symm, encodeOperand_rule 26 .short c a⟩

/-- Settles O11: `read`'s rule with the opcode of `rol`'s row. -/
theorem encRolRule : Obligations.EncRolRule := fun c a =>
  have row : { op := .rol, name := "rol", opcode := 8 } ∈ opTable := by decide
  ⟨(enc_name_of_mem_opTable row c a).symm, encodeOperand_rule 8 .short c a⟩

end Sys2Proof.Proofs
end

section
/-! SUPPORT. The bytes PACK serializes: each byte by its index, and the two formats' byte tables
(41_packer.md R65, R67 to R69). -/

namespace Sys2Proof

/-- Zero bits put on top keep a bit field below its own bound (30_encoding.md R39, R40). -/
theorem zeros_append_toNat_lt (n m : Nat) (b : BitVec m) : (0#n ++ b).toNat < 2 ^ m :=
  (zeros_append_toNat n m b).trans_lt b.isLt

namespace Machine

/-- Byte `k` as a number (41_packer.md R67). -/
theorem valueByte_toNat (v k : Nat) : (valueByte v k).toNat = v / 256 ^ k % 256 :=
  BitVec.toNat_ofNat _ _

theorem serialize_getElem? {v n k : Nat} (h : k < n) : (serialize v n)[k]? = some (valueByte v k) := by
  rw [serialize, List.getElem?_map, List.getElem?_range h, Option.map_some]

/-- Bytes are the serialization of the integer they hold (41_packer.md R67). -/
theorem serialize_leValue (bs : List Byte) : serialize (leValue bs) bs.length = bs := by
  refine leValue_injective _ _ (serialize_length _ _) ?_
  rw [leValue_serialize, Nat.mod_eq_of_lt (leValue_lt bs)]

/-- The packed value serializes to the Load format's bytes (41_packer.md R68). -/
theorem serialize_packValue_load (o : Opcode) (c : BitVec 23) :
    serialize (packValue c.toNat o.toNat) 4 = loadBytes o c := by
  rw [packValue_of_lt, ← leValue_loadBytes]
  exact serialize_leValue (loadBytes o c)

/-- The packed value serializes to the Short format's bytes (41_packer.md R69). -/
theorem serialize_packValue_short (o : Opcode) (a : BitVec 16) :
    serialize (packValue a.toNat o.toNat) 3 = shortBytes o a := by
  rw [packValue_of_lt, ← leValue_shortBytes]
  exact serialize_leValue (shortBytes o a)

/-- PACK on an operand in the format's range (41_packer.md R65, R67). -/
theorem pack_of_inRange (o : Opcode) (f : Format) (v : Int) (h : inRange f v = true) :
    pack { opcode := (o.toNat : Int), operand := v, byteWidth := (formatBytes f : Int) } =
      .ok (serialize (packValue v.toNat o.toNat) (formatBytes f)) :=
  pack_of_wfIR _ (wfIR_of_inRange o f v h)

/-- Every 23-bit operand is in the Load format's range (10_state.md R12). -/
theorem inRange_load_toNat (c : BitVec 23) : inRange .load (c.toNat : Int) = true := by
  have hc := c.isLt
  rw [inRange_iff, maxOperand]
  omega

/-- Every 16-bit operand is in the Short format's range (10_state.md R12). -/
theorem inRange_short_toNat (a : BitVec 16) : inRange .short (a.toNat : Int) = true := by
  have ha := a.isLt
  rw [inRange_iff, maxOperand]
  omega

/-- PACK's answer at `byteWidth = 4` (41_packer.md R68). -/
theorem pack_load (o : Opcode) (c : BitVec 23) :
    pack { opcode := (o.toNat : Int), operand := (c.toNat : Int), byteWidth := 4 } = .ok (loadBytes o c) :=
  (pack_of_inRange o .load c.toNat (inRange_load_toNat c)).trans (congrArg _ (serialize_packValue_load o c))

/-- PACK's answer at `byteWidth = 3` (41_packer.md R69). -/
theorem pack_short (o : Opcode) (a : BitVec 16) :
    pack { opcode := (o.toNat : Int), operand := (a.toNat : Int), byteWidth := 3 } = .ok (shortBytes o a) :=
  (pack_of_inRange o .short a.toNat (inRange_short_toNat a)).trans (congrArg _ (serialize_packValue_short o a))

/-- A `w`-bit operand gives a value of `w + 7` bits (41_packer.md R65, R66). -/
theorem packValue_lt (w : Nat) (v : BitVec w) (o : Opcode) : packValue v.toNat o.toNat < 2 ^ (w + 7) := by
  have hv := v.isLt
  have ho : o.toNat < 128 := o.isLt
  rw [packValue_of_lt, Nat.pow_add]
  omega

end Machine

end Sys2Proof
end

section
/-! PROOFS of the statements of 41_packer.md R65, R67, R68 and R69. -/

namespace Sys2Proof.Proofs

open Sys2Proof.Machine

/-- Settles O16: PACK gives the Load format's bytes, whose last is six operand bits under two zeros. -/
theorem packLoadFormat : Obligations.PackLoadFormat := fun o c =>
  ⟨pack_load o c, Nat.le_of_lt_succ (zeros_append_toNat_lt 2 6 _), Nat.le_of_lt_succ (packValue_lt 23 c o)⟩

/-- Settles O17: PACK gives the Short format's bytes, whose last is seven operand bits under a zero. -/
theorem packShortFormat : Obligations.PackShortFormat := fun o a =>
  ⟨pack_short o a, Nat.le_of_lt_succ (zeros_append_toNat_lt 1 7 _), Nat.le_of_lt_succ (packValue_lt 16 a o)⟩

/-- Settles O18: WF_IR makes PACK's answer the serialization of the packed value, which is read byte by byte. -/
theorem packBytesOfValue : Obligations.PackBytesOfValue := by
  intro ir h
  have hw := (wfIR_iff ir).1 h
  refine ⟨_, pack_of_wfIR ir h, by rw [serialize_length]; omega, fun k hk => ?_⟩
  rw [serialize_length] at hk
  rw [serialize_getElem? hk, Option.map_some, valueByte_toNat, packValue]

end Sys2Proof.Proofs
end

section
/-! SUPPORT. The assembly loop: its equations, and what it does on a prefix that assembles (42_assembly.md R74, R76). -/

namespace Sys2Proof.Machine

/-! ### One instruction -/

section
variable {x : SymInstr}

/-- An error of ENC is the instruction's error (42_assembly.md R74). -/
theorem assembleOne_of_enc_error {e : AsmError} (h : enc x = .error e) : assembleOne x = .error e := by
  rw [assembleOne, h]

/-- PACK is applied to the IR that ENC returned (42_assembly.md R74). -/
theorem assembleOne_of_enc_ok {ir : IR} (h : enc x = .ok ir) : assembleOne x = pack ir := by
  rw [assembleOne, h]

end

/-! ### The loop, by its next instruction -/

section
variable (i : Nat) (image : List Byte) {x : SymInstr} (xs : List SymInstr)

@[simp] theorem assembleLoop_nil : assembleLoop i image [] = .ok image := rfl

theorem assembleLoop_cons_of_ok {bytes : List Byte} (h : assembleOne x = .ok bytes) :
    assembleLoop i image (x :: xs) = assembleLoop (i + 1) (image ++ bytes) xs := by
  rw [assembleLoop, h]

/-- The loop stops at a failure, with its position (42_assembly.md R76). -/
theorem assembleLoop_cons_of_error {e : AsmError} (h : assembleOne x = .error e) :
    assembleLoop i image (x :: xs) = .error i e := by
  rw [assembleLoop, h]

end

/-! ### The loop, past instructions that all succeed -/

/-- Instructions that succeed advance the position by their number and extend the image by their bytes
(42_assembly.md R74). -/
theorem assembleLoop_append_of_ok (rest : List SymInstr) {before : List SymInstr} {bss : List (List Byte)}
    (h : before.map assembleOne = bss.map PackResult.ok) (i : Nat) (image : List Byte) :
    assembleLoop i image (before ++ rest) = assembleLoop (i + before.length) (image ++ bss.flatten) rest := by
  induction before generalizing bss i image with
  | nil =>
    obtain rfl : bss = [] := List.map_eq_nil_iff.1 h.symm
    rw [List.nil_append, List.length_nil, Nat.add_zero, List.flatten_nil, List.append_nil]
  | cons x xs ih =>
    obtain ⟨bs, bss, rfl, hx, hxs⟩ := List.map_eq_cons_iff.1 h.symm
    calc assembleLoop i image (x :: (xs ++ rest))
      _ = assembleLoop (i + 1) (image ++ bs) (xs ++ rest) := assembleLoop_cons_of_ok i image _ hx.symm
      _ = assembleLoop (i + 1 + xs.length) (image ++ bs ++ bss.flatten) rest := ih hxs.symm _ _
      _ = assembleLoop (i + (x :: xs).length) (image ++ (bs :: bss).flatten) rest := by
        rw [List.length_cons, Nat.add_right_comm, Nat.add_assoc, List.flatten_cons, List.append_assoc]

/-- After instructions that succeed, assembly goes on from their number with their bytes (42_assembly.md R74). -/
theorem assemble_append_of_ok (rest : List SymInstr) {before : List SymInstr} {bss : List (List Byte)}
    (h : before.map assembleOne = bss.map PackResult.ok) :
    assemble (before ++ rest) = assembleLoop before.length bss.flatten rest := by
  rw [assemble, assembleLoop_append_of_ok rest h, Nat.zero_add, List.nil_append]

/-- Instructions that all succeed give their bytes in order (42_assembly.md R74). -/
theorem assemble_of_ok {program : List SymInstr} {bss : List (List Byte)}
    (h : program.map assembleOne = bss.map PackResult.ok) : assemble program = .ok bss.flatten := by
  rw [← List.append_nil program, assemble_append_of_ok [] h, assembleLoop_nil]

/-- The first failing instruction gives its position and its error, whatever stands after it (42_assembly.md R76). -/
theorem assemble_of_first_error (after : List SymInstr) {before : List SymInstr} {bss : List (List Byte)} {x : SymInstr}
    {e : AsmError} (h : before.map assembleOne = bss.map PackResult.ok) (hx : assembleOne x = .error e) :
    assemble (before ++ x :: after) = .error before.length e := by
  rw [assemble_append_of_ok _ h, assembleLoop_cons_of_error _ _ _ hx]

end Sys2Proof.Machine
end

section
/-! PROOF of the statement of 42_assembly.md R74 and R76. -/

namespace Sys2Proof.Proofs

open Sys2Proof.Machine

/-- Settles O43: past the instructions that succeed, the loop is at their number with their bytes; it returns the bytes when
nothing is left and stops when the next instruction fails. -/
theorem assembleFirstFailure : Obligations.AssembleFirstFailure :=
  ⟨fun _ => ⟨fun _ => assembleOne_of_enc_error, fun _ => assembleOne_of_enc_ok⟩,
    fun _ _ h => ⟨assemble_of_ok h, fun _ _ after hx => assemble_of_first_error after h hx⟩⟩

end Sys2Proof.Proofs
end

section
/-! SUPPORT. The names outside the Operation Table (60_exceptions.md R86). -/

namespace Sys2Proof.Machine

/-- The table has no row for a name other than its four (10_state.md R9). -/
theorem opRow_eq_none_of_ne (name : String) (hload : name ≠ "load") (hread : name ≠ "read") (hwrite : name ≠ "write")
    (hrol : name ≠ "rol") : opRow name = none := by
  cases hr : opRow name with
  | none => rfl
  | some r =>
    obtain ⟨h, -⟩ | ⟨h | h | h, -⟩ := name_and_format_of_opRow name r hr
    · exact absurd h hload
    · exact absurd h hread
    · exact absurd h hwrite
    · exact absurd h hrol

end Sys2Proof.Machine
end

section
/-! PROOF of the statement of 60_exceptions.md R86. -/

namespace Sys2Proof.Proofs

open Sys2Proof.Machine

/-- Settles O12: the lookup finds no row, so ENC answers `UnknownOperation`, and the first failure ends the assembly at its
position. -/
theorem unknownNameAbortsProgram : Obligations.UnknownNameAbortsProgram := by
  intro i hload hread hwrite hrol
  have henc : enc i = .error (.unknownOperation i.op) :=
    enc_of_opRow_none i (opRow_eq_none_of_ne i.op hload hread hwrite hrol)
  exact ⟨henc, fun before after _ hbefore =>
    ⟨before.length, assemble_of_first_error after hbefore (assembleOne_of_enc_error henc)⟩⟩

end Sys2Proof.Proofs
end

section
/-! SUPPORT. An instruction as its operation and the one operand its format reads: the tables by operation, and ENC, the
meaning and the encoder in those terms (10_state.md R9, R12, R13; 30_encoding.md R39, R40, R46; 40_encoder.md R50 to R52). -/

namespace Sys2Proof

open Machine

/-- The opcode column of the Operation Table, by operation (10_state.md R9). -/
def opcodeOf : Op → Opcode
  | .load => 31
  | .read => 121
  | .write => 26
  | .rol => 8

/-- The row of an operation stands in the Operation Table. -/
theorem opRow_opName (op : Op) : opRow (opName op) = some { op := op, name := opName op, opcode := opcodeOf op } :=
  opRow_of_mem (r := { op := op, name := opName op, opcode := opcodeOf op }) (by cases op <;> decide)

/-- A row of the Operation Table is the one of its operation. -/
theorem name_and_opcode_of_opRow {name : String} {r : OpRow} (h : opRow name = some r) :
    name = opName r.op ∧ r.opcode = opcodeOf r.op := by
  obtain ⟨hr, rfl⟩ := (opRow_eq_some_iff name r).1 h
  have rows : ∀ r ∈ opTable, r.name = opName r.op ∧ r.opcode = opcodeOf r.op := by decide
  exact rows r hr

/-- The content of the one operand field that the instruction's format names (40_encoder.md R52). -/
def Instr.operand (i : Instr) : Option Int :=
  selectField (fieldOf (formatOfOp i.op)) i.toSym.const i.toSym.addr

/-! ### Instructions and the records that present them -/

theorem instrOf_toSym (i : Instr) : instrOf i.toSym = some i := by
  cases i with
  | load c a => exact Laws.NameReadsBack.load c a
  | read c a => exact Laws.NameReadsBack.read c a
  | write c a => exact Laws.NameReadsBack.write c a
  | rol c a => exact Laws.NameReadsBack.rol c a

theorem toSym_mkInstr (op : Op) (c a : Option Int) :
    (mkInstr op c a).toSym = { op := opName op, const := c, addr := a } := by
  cases op <;> rfl

/-- The record an instruction was read from presents it. -/
theorem toSym_of_instrOf {x : SymInstr} {i : Instr} (h : instrOf x = some i) : i.toSym = x := by
  obtain ⟨r, hr, rfl⟩ := Option.map_eq_some_iff.1 h
  rw [toSym_mkInstr, ← (name_and_opcode_of_opRow hr).1]

/-- A record stands for no instruction exactly when its name has no row (40_encoder.md R50). -/
theorem instrOf_eq_none_iff (x : SymInstr) : instrOf x = none ↔ opRow x.op = none :=
  Option.map_eq_none_iff

/-! ### Validity and the unused field -/

/-- The instruction is valid when the operand its format names is present and in the format's range (30_encoding.md R46). -/
theorem wellFormed_eq (i : Instr) : i.wellFormed = i.operand.any (inRange (formatOfOp i.op)) := by
  have const (c : Option Int) : constValid c = c.any (inRange .load) := by cases c <;> rfl
  have addr (a : Option Int) : addrValid a = a.any (inRange .short) := by cases a <;> rfl
  cases i with
  | load c _ => exact const c
  | read _ a => exact addr a
  | write _ a => exact addr a
  | rol _ a => exact addr a

theorem wellFormed_iff (i : Instr) :
    i.wellFormed = true ↔ ∃ v, i.operand = some v ∧ inRange (formatOfOp i.op) v = true := by
  rw [wellFormed_eq]
  cases i.operand <;> simp

@[simp] theorem op_dropUnused (i : Instr) : i.dropUnused.op = i.op := by
  cases i <;> rfl

/-- The unused field is not the operand (40_encoder.md R60). -/
@[simp] theorem operand_dropUnused (i : Instr) : i.dropUnused.operand = i.operand := by
  cases i <;> rfl

/-- A canonical instruction has no unused field to drop. -/
theorem dropUnused_of_canonical {i : Instr} (h : i.canonical = true) : i.dropUnused = i := by
  cases i <;> rw [Instr.dropUnused, Option.isNone_iff_eq_none.1 h]

/-! ### What the map's operand stands for -/

@[simp] theorem op_mkDecoded (op : Op) (v : Nat) : (mkDecoded op v).op = op := by
  cases op <;> rfl

@[simp] theorem operand_mkDecoded (op : Op) (v : Nat) : (mkDecoded op v).operand = some (v : Int) := by
  cases op <;> rfl

theorem canonical_mkDecoded (op : Op) (v : Nat) : (mkDecoded op v).canonical = true := by
  cases op <;> rfl

/-- Without its unused field an instruction is what its operation and operand are decoded to. -/
theorem dropUnused_eq_mkDecoded {i : Instr} {v : Nat} (h : i.operand = some (v : Int)) :
    i.dropUnused = mkDecoded i.op v := by
  cases i <;> cases h <;> rfl

namespace Machine

/-! ### The meaning and ENC -/

/-- ENC on an instruction is the operand stage at its operation's row (40_encoder.md R50, R51). -/
theorem enc_toSym (i : Instr) :
    enc i.toSym = encodeOperand (opcodeOf i.op) (formatOfOp i.op) i.toSym.const i.toSym.addr := by
  have hname : i.toSym.op = opName i.op := by cases i <;> rfl
  exact enc_of_opRow i.toSym _ (hname ▸ opRow_opName i.op)

/-- An instruction's meaning is ASM's step on ENC's answer for its record (42_assembly.md R79). -/
theorem exec_eq_asmStep (i : Instr) (s : State) : exec i s = asmStep (enc i.toSym) s := by
  rw [enc_toSym]
  cases i <;> rfl

end Machine

/-! ### The encoder as serialization -/

/-- An operand in a format's range lies below two to the format's operand width (10_state.md R12). -/
theorem inRange_iff_lt (f : Format) (v : Int) : inRange f v = true ↔ 0 ≤ v ∧ v < 2 ^ opBits f := by
  rw [inRange_iff]
  cases f <;> simp only [maxOperand, opBits] <;> omega

theorem loadBytes_ofInt (o : Opcode) {v : Int} (h : inRange .load v = true) :
    loadBytes o (BitVec.ofInt 23 v) = serialize (packValue v.toNat o.toNat) 4 := by
  obtain ⟨h0, hlt⟩ := (inRange_iff_lt _ v).1 h
  rw [← serialize_packValue_load, ← ofInt_toNat 23 v h0 hlt, Int.toNat_natCast, ofInt_toNat 23 v h0 hlt]

theorem shortBytes_ofInt (o : Opcode) {v : Int} (h : inRange .short v = true) :
    shortBytes o (BitVec.ofInt 16 v) = serialize (packValue v.toNat o.toNat) 3 := by
  obtain ⟨h0, hlt⟩ := (inRange_iff_lt _ v).1 h
  rw [← serialize_packValue_short, ← ofInt_toNat 16 v h0 hlt, Int.toNat_natCast, ofInt_toNat 16 v h0 hlt]

/-- The byte tables of 30_encoding.md R39 and R40 agree with the packed value of 41_packer.md R65 and R67. -/
theorem encode_eq_serialize {i : Instr} {v : Int} (h : i.operand = some v) (hv : inRange (formatOfOp i.op) v = true) :
    encode i = serialize (packValue v.toNat (opcodeOf i.op).toNat) (formatBytes (formatOfOp i.op)) := by
  cases i <;> cases h
  case load => exact loadBytes_ofInt 31 hv
  case read => exact shortBytes_ofInt 121 hv
  case write => exact shortBytes_ofInt 26 hv
  case rol => exact shortBytes_ofInt 8 hv

/-- The number of bytes of an instruction is its format's (30_encoding.md R37). -/
@[simp] theorem encode_length (i : Instr) : (encode i).length = formatBytes (formatOfOp i.op) := by
  cases i <;> rfl

end Sys2Proof
end

section
/-! SUPPORT. The decoder: the encoding map by operation, its masks as bounds on the operand, and what `decode` does on bytes
whose opcode field is in the map (30_encoding.md R43 to R45). -/

namespace Sys2Proof

open Machine

/-- The mask column of the encoding map, by format: the opcode field and the bits above the operand (30_encoding.md R43). -/
def maskOf : Format → Nat
  | .load => 0xC000007F
  | .short => 0x80007F

/-- The map's row for an operation's opcode. -/
theorem encRow_opcodeOf (op : Op) :
    encRow (opcodeOf op).toNat =
      some { op := op, bytes := formatBytes (formatOfOp op), mask := maskOf (formatOfOp op),
             pattern := (opcodeOf op).toNat } := by
  cases op <;> rfl

/-- The map finds a row for its operation's opcode only. -/
theorem eq_opcodeOf_of_encRow {n : Nat} {row : EncRow} (h : encRow n = some row) : n = (opcodeOf row.op).toNat := by
  have rows : ∀ row ∈ encTable, row.pattern % 128 = (opcodeOf row.op).toNat := by decide
  rw [← rows row (List.mem_of_find?_eq_some h)]
  exact (of_decide_eq_true (List.find?_some h :)).symm

/-- The part of a mask from bit `k` on and the part below it each act on their own part of a number. -/
theorem and_split (k w hi lo : Nat) (hlo : lo < 2 ^ k) :
    w &&& (hi * 2 ^ k + lo) = (w / 2 ^ k &&& hi) * 2 ^ k + (w % 2 ^ k &&& lo) := by
  have hk : 0 < 2 ^ k := Nat.two_pow_pos k
  have hdiv : (hi * 2 ^ k + lo) / 2 ^ k = hi := by
    rw [Nat.mul_comm, Nat.mul_add_div hk, Nat.div_eq_of_lt hlo, Nat.add_zero]
  have hmod : (hi * 2 ^ k + lo) % 2 ^ k = lo := by
    rw [Nat.mul_comm, Nat.mul_add_mod, Nat.mod_eq_of_lt hlo]
  rw [← Nat.div_add_mod' (w &&& (hi * 2 ^ k + lo)) (2 ^ k), Nat.and_div_two_pow, Nat.and_mod_two_pow, hdiv, hmod]

/-- A mask keeps the opcode field and the reserved bits of a word (30_encoding.md R43). -/
theorem and_maskOf (f : Format) (w : Nat) (hw : w < 256 ^ formatBytes f) :
    w &&& maskOf f = w / 2 ^ (7 + opBits f) * 2 ^ (7 + opBits f) + w % 128 := by
  have low (n : Nat) : n &&& 127 = n % 128 := Nat.and_two_pow_sub_one_eq_mod n 7
  cases f with
  | load =>
    have top : w / 2 ^ 30 &&& 3 = w / 2 ^ 30 % 4 := Nat.and_two_pow_sub_one_eq_mod _ 2
    have hlt : w / 2 ^ 30 < 4 := Nat.div_lt_of_lt_mul hw
    rw [show maskOf .load = 3 * 2 ^ 30 + 127 from rfl, and_split 30 w 3 127 (by decide), top, low,
      Nat.mod_eq_of_lt hlt, Nat.mod_mod_of_dvd w (by decide)]
    rfl
  | short =>
    have top : w / 2 ^ 23 &&& 1 = w / 2 ^ 23 % 2 := Nat.and_two_pow_sub_one_eq_mod _ 1
    have hlt : w / 2 ^ 23 < 2 := Nat.div_lt_of_lt_mul hw
    rw [show maskOf .short = 1 * 2 ^ 23 + 127 from rfl, and_split 23 w 1 127 (by decide), top, low,
      Nat.mod_eq_of_lt hlt, Nat.mod_mod_of_dvd w (by decide)]
    rfl

/-- A word matches a row when its opcode field is the row's and the operand above it fits (30_encoding.md R43). -/
theorem and_maskOf_eq_iff (f : Format) (w : Nat) (o : Opcode) (hw : w < 256 ^ formatBytes f) :
    w &&& maskOf f = o.toNat ↔ w % 128 = o.toNat ∧ w / 128 < 2 ^ opBits f := by
  have ho : o.toNat < 128 := o.isLt
  rw [and_maskOf f w hw]
  cases f <;> simp only [opBits] <;> omega

theorem formatBytes_pos (f : Format) : 0 < formatBytes f := by
  cases f <;> decide

/-- `load` alone has four bytes (30_encoding.md R37). -/
theorem formatBytes_eq_four_iff (op : Op) : formatBytes (formatOfOp op) = 4 ↔ (opcodeOf op).toNat = 31 := by
  cases op <;> decide

/-! ### `decode` -/

/-- Opcodes outside the map are refused by name (30_encoding.md R45, first item). -/
theorem decode_of_encRow_none (b : Byte) (bs : List Byte) (h : encRow (b.toNat % 128) = none) :
    decode (b :: bs) = .refused (.unknownOpcode (b.toNat % 128)) := by
  simp only [decode, h]

theorem leValue_cons_mod (b : Byte) (bs : List Byte) : leValue (b :: bs) % 128 = b.toNat % 128 := by
  simp only [leValue]
  omega

/-- The low 7 bits stand in the first byte (30_encoding.md R44). -/
theorem leValue_take_mod (bs : List Byte) {n : Nat} (hn : 0 < n) : leValue (bs.take n) % 128 = leValue bs % 128 := by
  obtain ⟨n, rfl⟩ := Nat.exists_eq_add_one.2 hn
  cases bs with
  | nil => rfl
  | cons b bs => rw [List.take_succ_cons, leValue_cons_mod, leValue_cons_mod]

section
variable {op : Op} {bs : List Byte}

/-- Too few bytes for the opcode's length (30_encoding.md R44). -/
theorem decode_of_length_lt (hop : leValue bs % 128 = (opcodeOf op).toNat)
    (hlen : bs.length < formatBytes (formatOfOp op)) : decode bs = .refused .truncated := by
  cases bs with
  | nil => rfl
  | cons b bs =>
    rw [leValue_cons_mod] at hop
    simp only [decode, hop, encRow_opcodeOf, if_pos hlen]

/-- With enough bytes for the opcode's length, the operand's bound decides (30_encoding.md R43, R45). -/
theorem decode_of_le_length (hop : leValue bs % 128 = (opcodeOf op).toNat)
    (hlen : formatBytes (formatOfOp op) ≤ bs.length) :
    decode bs =
      if leValue (bs.take (formatBytes (formatOfOp op))) / 128 < 2 ^ opBits (formatOfOp op) then
        .instr (mkDecoded op (leValue (bs.take (formatBytes (formatOfOp op))) / 128))
          (bs.drop (formatBytes (formatOfOp op)))
      else .refused (.reservedBitsSet op) := by
  have hpos := formatBytes_pos (formatOfOp op)
  have hword : leValue (bs.take (formatBytes (formatOfOp op))) < 256 ^ formatBytes (formatOfOp op) := by
    simpa only [List.length_take, Nat.min_eq_left hlen] using leValue_lt (bs.take (formatBytes (formatOfOp op)))
  have hmask := and_maskOf_eq_iff (formatOfOp op) _ (opcodeOf op) hword
  rw [leValue_take_mod bs hpos, hop] at hmask
  cases bs with
  | nil => exact absurd hlen (Nat.not_le_of_lt hpos)
  | cons b bs =>
    rw [leValue_cons_mod] at hop
    simp only [decode, hop, encRow_opcodeOf, if_neg (Nat.not_lt_of_le hlen), hmask, true_and,
      Nat.shiftRight_eq_div_pow, Nat.reducePow]

/-- An operand that overruns its field is refused by the operation's name (30_encoding.md R45, items 2 and 3). -/
theorem decode_of_reserved (hop : leValue bs % 128 = (opcodeOf op).toNat)
    (hlen : formatBytes (formatOfOp op) ≤ bs.length)
    (hbig : 2 ^ opBits (formatOfOp op) ≤ leValue (bs.take (formatBytes (formatOfOp op))) / 128) :
    decode bs = .refused (.reservedBitsSet op) := by
  rw [decode_of_le_length hop hlen, if_neg (Nat.not_lt_of_le hbig)]

end

/-! ### Decoding and encoding -/

/-- An operation's bytes hold opcode and operand (30_encoding.md R38). -/
theorem leValue_encode {i : Instr} {v : Nat} (h : i.operand = some (v : Int))
    (hv : inRange (formatOfOp i.op) v = true) : leValue (encode i) = v * 128 + (opcodeOf i.op).toNat := by
  have hlt := packValue_lt_of_inRange (opcodeOf i.op) _ _ hv
  rw [encode_eq_serialize h hv, leValue_serialize, Nat.mod_eq_of_lt hlt, packValue_of_lt, Int.toNat_natCast]

/-- A valid instruction's bytes decode to it, without its unused field (30_encoding.md R43, R46). -/
theorem decode_encode {i : Instr} (h : i.wellFormed = true) : decode (encode i) = .instr i.dropUnused [] := by
  obtain ⟨v, hop, hv⟩ := (wellFormed_iff i).1 h
  obtain ⟨h0, hlt⟩ := (inRange_iff_lt _ _).1 hv
  lift v to ℕ using h0
  have ho : (opcodeOf i.op).toNat < 128 := (opcodeOf i.op).isLt
  have hval := leValue_encode hop hv
  have hdiv : leValue (encode i) / 128 = v := by omega
  have htake : (encode i).take (formatBytes (formatOfOp i.op)) = encode i :=
    List.take_of_length_le (encode_length i).le
  have hdrop : (encode i).drop (formatBytes (formatOfOp i.op)) = [] :=
    List.drop_of_length_le (encode_length i).le
  rw [decode_of_le_length (op := i.op) (by omega) (encode_length i).ge, htake, hdrop, hdiv,
    if_pos (by exact_mod_cast hlt), dropUnused_eq_mkDecoded hop]

/-- What decodes under an operation's opcode begins with the bytes of that operation and an operand in range. -/
theorem decode_eq_instr_of_opcode {op : Op} {bs : List Byte} {i : Instr} {rest : List Byte}
    (hop : leValue bs % 128 = (opcodeOf op).toNat) (h : decode bs = .instr i rest) :
    ∃ v : Nat, i = mkDecoded op v ∧ inRange (formatOfOp op) v = true ∧ bs = encode (mkDecoded op v) ++ rest := by
  by_cases hlen : bs.length < formatBytes (formatOfOp op)
  · rw [decode_of_length_lt hop hlen] at h
    cases h
  · have hle := Nat.le_of_not_lt hlen
    rw [decode_of_le_length hop hle] at h
    generalize hv : leValue (bs.take (formatBytes (formatOfOp op))) / 128 = v at h
    split at h <;> cases h
    next hfits =>
    have hin : inRange (formatOfOp op) v = true :=
      (inRange_iff_lt _ _).2 ⟨Int.natCast_nonneg _, by exact_mod_cast hfits⟩
    have hval := leValue_encode (operand_mkDecoded op v) (by rwa [op_mkDecoded])
    have hword : bs.take (formatBytes (formatOfOp op)) = encode (mkDecoded op v) := by
      refine leValue_injective _ _ ?length ?value
      case length => rw [List.length_take, Nat.min_eq_left hle, encode_length, op_mkDecoded]
      case value => rw [hval, op_mkDecoded, ← hop, ← leValue_take_mod bs (formatBytes_pos _), ← hv, Nat.div_add_mod']
    exact ⟨v, rfl, hin, by rw [← hword, List.take_append_drop]⟩

/-- What decodes begins with the bytes of an operation and an operand in range (30_encoding.md R43 to R45). -/
theorem decode_eq_instr {bs : List Byte} {i : Instr} {rest : List Byte} (h : decode bs = .instr i rest) :
    ∃ (op : Op) (v : Nat), i = mkDecoded op v ∧ inRange (formatOfOp op) v = true ∧
      bs = encode (mkDecoded op v) ++ rest := by
  cases bs with
  | nil => cases h
  | cons b tail =>
    cases hrow : encRow (b.toNat % 128) with
    | none => rw [decode_of_encRow_none b tail hrow] at h; cases h
    | some row =>
      exact ⟨row.op, decode_eq_instr_of_opcode ((leValue_cons_mod b tail).trans (eq_opcodeOf_of_encRow hrow)) h⟩

/-- The low 7 bits and the length of what decodes are the instruction's (30_encoding.md R44). -/
theorem opcode_and_length_of_decode {bs : List Byte} {i : Instr} {rest : List Byte} (h : decode bs = .instr i rest) :
    leValue bs % 128 = (opcodeOf i.op).toNat ∧ bs.length = formatBytes (formatOfOp i.op) + rest.length := by
  obtain ⟨op, v, rfl, hv, rfl⟩ := decode_eq_instr h
  have ho : (opcodeOf op).toNat < 128 := (opcodeOf op).isLt
  have hval := leValue_encode (operand_mkDecoded op v) (by rwa [op_mkDecoded])
  rw [op_mkDecoded] at hval ⊢
  refine ⟨?_, by rw [List.length_append, encode_length, op_mkDecoded]⟩
  rw [← leValue_take_mod _ (formatBytes_pos (formatOfOp op)),
    List.take_left' (by rw [encode_length, op_mkDecoded]), hval]
  omega

/-! ### Table words -/

theorem leBytes_eq_serialize (n w : Nat) : leBytes n w = serialize w n := by
  induction n generalizing w with
  | zero => rfl
  | succ n ih => rw [leBytes, ih, serialize_succ, valueByte, Nat.pow_zero, Nat.div_one]

/-- A table word that is an instruction holds its opcode and exactly its bits (30_encoding.md R45, last item). -/
theorem opcode_and_size_of_decodeTableWord {nbits w : Nat} {i : Instr} (h : decodeTableWord nbits w = some i) :
    w % 128 = (opcodeOf i.op).toNat ∧ nbits = 8 * formatBytes (formatOfOp i.op) := by
  unfold decodeTableWord at h
  split at h
  · cases h
  · next j rest hd =>
    split at h <;> cases h
    next hrest =>
    obtain ⟨rfl, hbits⟩ := hrest
    obtain ⟨hop, hlen⟩ := opcode_and_length_of_decode hd
    rw [leBytes_eq_serialize] at hop hlen
    rw [serialize_length, List.length_nil, Nat.add_zero] at hlen
    obtain ⟨k, hk⟩ : 128 ∣ 256 ^ (nbits / 8) := by
      rw [hlen]; cases formatOfOp i.op <;> decide
    rw [leValue_serialize, hk, Nat.mod_mul_right_mod] at hop
    exact ⟨hop, by omega⟩

end Sys2Proof
end

section
/-! PROOFS of the statements of 30_encoding.md R43, R45, R48 about the decoder. -/

namespace Sys2Proof.Proofs

open Sys2Proof.Machine

/-- Settles O1: each word evaluates. -/
theorem decodeOfSpecWords : Obligations.DecodeOfSpecWords := by
  unfold Obligations.DecodeOfSpecWords
  decide

/-- Settles O2: the bytes decode to the instruction, and bytes behind them do not change how it is read. -/
theorem decodeEncodeRoundTrip : Obligations.DecodeEncodeRoundTrip :=
  fun i rest h => ⟨decode_append (encode i) rest _ _ (decode_encode h), dropUnused_of_canonical⟩

/-- Settles O3: what decodes is an operation of the map with an operand in range, followed by the rest. -/
theorem decodeYieldsOnlyEncodings : Obligations.DecodeYieldsOnlyEncodings := by
  intro bs i rest h
  obtain ⟨op, v, rfl, hv, hbs⟩ := decode_eq_instr h
  exact ⟨(wellFormed_iff _).2 ⟨v, operand_mkDecoded op v, by rwa [op_mkDecoded]⟩, canonical_mkDecoded op v, hbs⟩

/-- Settles O4: an opcode outside the map has no row; a reserved bit makes the operand overrun its field; a word of the
wrong length has too few bytes, or is no instruction's size. -/
theorem decodeRefusesNeverProduced : Obligations.DecodeRefusesNeverProduced := by
  refine ⟨?opcode, ?load, ?short, ?truncated, ?word24, ?word32⟩
  case opcode =>
    intro b bs hload hread hwrite hrol
    refine decode_of_encRow_none b bs (Option.eq_none_iff_forall_ne_some.2 fun row hrow => ?_)
    have hop := eq_opcodeOf_of_encRow hrow
    cases hr : row.op <;> rw [hr] at hop <;> contradiction
  case load =>
    intro b0 b1 b2 b3 rest hop hb
    refine decode_of_reserved (op := .load) ((leValue_cons_mod _ _).trans hop) (Nat.le_add_left _ _) ?_
    simp only [formatOfOp, formatBytes, opBits, List.take_succ_cons, List.take_zero, leValue]
    omega
  case short =>
    intro b0 b1 b2 rest hb
    have reserved (op : Op) (hf : formatOfOp op = .short) (hop : b0.toNat % 128 = (opcodeOf op).toNat) :
        decode (b0 :: b1 :: b2 :: rest) = .refused (.reservedBitsSet op) := by
      refine decode_of_reserved ((leValue_cons_mod _ _).trans hop) (hf ▸ Nat.le_add_left _ _) ?_
      simp only [hf, formatBytes, opBits, List.take_succ_cons, List.take_zero, leValue]
      omega
    exact ⟨reserved .read rfl, reserved .write rfl, reserved .rol rfl⟩
  case truncated =>
    intro b0 b1 b2 hop
    exact decode_of_length_lt (op := .load) ((leValue_cons_mod _ _).trans hop) (Nat.lt_succ_self 3)
  case word24 =>
    intro w hw
    refine Option.eq_none_iff_forall_ne_some.2 fun i hi => ?_
    obtain ⟨hop, hsize⟩ := opcode_and_size_of_decodeTableWord hi
    have := formatBytes_eq_four_iff i.op
    omega
  case word32 =>
    intro w hw
    refine Option.eq_none_iff_forall_ne_some.2 fun i hi => ?_
    obtain ⟨hop, hsize⟩ := opcode_and_size_of_decodeTableWord hi
    have := formatBytes_eq_four_iff i.op
    omega

end Sys2Proof.Proofs
end

section
/-! SUPPORT. ENC followed by PACK on any record, and a step of ASM on the answer: the one case analysis that the statements
about the meanings, the step and the assembly cite (42_assembly.md R74, R79, R81). -/

namespace Sys2Proof.Machine

/-! ### ENC, then PACK -/

/-- On a valid instruction ENC answers an IR whose bytes are the instruction's (30_encoding.md R46; 41_packer.md R65, R67). -/
theorem enc_of_wellFormed {i : Instr} (h : i.wellFormed = true) :
    ∃ ir, enc i.toSym = .ok ir ∧ wfIR ir = true ∧ pack ir = .ok (encode i) ∧ ir.byteWidth.toNat = (encode i).length := by
  obtain ⟨v, hop, hv⟩ := (wellFormed_iff i).1 h
  refine ⟨_, (enc_toSym i).trans (encodeOperand_of_inRange hop hv), wfIR_of_inRange _ _ v hv, ?_, ?_⟩
  · rw [pack_of_inRange _ _ v hv, encode_eq_serialize hop hv]
  · rw [encode_length, Int.toNat_natCast]

/-- On an instruction that is not valid ENC answers one of its errors (30_encoding.md R46). -/
theorem enc_of_not_wellFormed {i : Instr} (h : i.wellFormed = false) :
    ∃ e, enc i.toSym = .error e ∧ isEncError e = true := by
  rw [enc_toSym]
  obtain ⟨-, he⟩ | ⟨v, hv, hr, -⟩ | ⟨v, -, -, he⟩ :=
    encodeOperand_cases (opcodeOf i.op) (formatOfOp i.op) i.toSym.const i.toSym.addr
  · exact ⟨_, he, rfl⟩
  · rw [(wellFormed_iff i).2 ⟨v, hv, hr⟩] at h
    cases h
  · exact ⟨_, he, rfl⟩

/-- ENC accepts a record exactly when it presents a valid instruction; else it answers one of its errors, PACK's never
(40_encoder.md R49, 41_packer.md R71). -/
theorem enc_cases (x : SymInstr) :
    (∃ i ir, instrOf x = some i ∧ i.wellFormed = true ∧ enc x = .ok ir ∧ wfIR ir = true ∧ pack ir = .ok (encode i) ∧
      ir.byteWidth.toNat = (encode i).length) ∨
    (∃ e, enc x = .error e ∧ isEncError e = true) := by
  cases hi : instrOf x with
  | none => exact .inr ⟨_, enc_of_opRow_none x ((instrOf_eq_none_iff x).1 hi), rfl⟩
  | some i =>
    rw [← toSym_of_instrOf hi]
    cases hwf : i.wellFormed with
    | false => exact .inr (enc_of_not_wellFormed hwf)
    | true =>
      obtain ⟨ir, h⟩ := enc_of_wellFormed hwf
      exact .inl ⟨i, ir, rfl, hwf, h⟩

/-- Every record assembles to the bytes of the valid instruction it presents or fails with one of ENC's errors
(42_assembly.md R74, 41_packer.md R71). -/
theorem assembleOne_cases (x : SymInstr) :
    (∃ i, instrOf x = some i ∧ i.wellFormed = true ∧ assembleOne x = .ok (encode i)) ∨
    (∃ e, assembleOne x = .error e ∧ isEncError e = true) := by
  obtain ⟨i, ir, hi, hwf, henc, -, hpack, -⟩ | ⟨e, henc, he⟩ := enc_cases x
  · exact .inl ⟨i, hi, hwf, (assembleOne_of_enc_ok henc).trans hpack⟩
  · exact .inr ⟨e, assembleOne_of_enc_error henc, he⟩

/-- What a record assembles to is the bytes of the valid instruction it presents. -/
theorem exists_instrOf_of_assembleOne {x : SymInstr} {bs : List Byte} (h : assembleOne x = .ok bs) :
    ∃ i, instrOf x = some i ∧ i.wellFormed = true ∧ bs = encode i := by
  obtain ⟨i, hi, hwf, h'⟩ | ⟨e, h', -⟩ := assembleOne_cases x <;> rw [h'] at h <;> cases h
  exact ⟨i, hi, hwf, rfl⟩

/-- A record that fails to assemble fails in ENC, PACK being applied only to ENC's IRs (42_assembly.md R74). -/
theorem enc_of_assembleOne_error {x : SymInstr} {e : AsmError} (h : assembleOne x = .error e) : enc x = .error e := by
  obtain ⟨i, ir, -, -, henc, -, hpack, -⟩ | ⟨e', henc, -⟩ := enc_cases x
  · rw [assembleOne_of_enc_ok henc, hpack] at h
    cases h
  · rw [assembleOne_of_enc_error henc] at h
    cases h
    exact henc

/-! ### A step of ASM -/

/-- Nothing is consumed in DONE and ABORTED (42_assembly.md R81). -/
theorem asmStep_of_not_run {s : State} (r : EncResult) (h : s.status ≠ .run) : asmStep r s = .next s := by
  unfold asmStep
  exact if_neg (mt (enabled_iff s).1 h)

/-- In RUN an error of ENC is taken (60_exceptions.md R93). -/
theorem asmStep_of_error {s : State} {x : SymInstr} {e : AsmError} (h : s.status = .run)
    (hx : assembleOne x = .error e) : asmStep (enc x) s = .next (s.withError e) := by
  rw [enc_of_assembleOne_error hx, asmStep_error, if_pos ((enabled_iff s).2 h)]

/-- In RUN the bytes of the instruction are emitted (42_assembly.md R79). -/
theorem asmStep_of_ok {s : State} {x : SymInstr} {bs : List Byte} (h : s.status = .run)
    (hx : assembleOne x = .ok bs) : asmStep (enc x) s = .next (s.withEmitted bs bs.length) := by
  obtain ⟨i, ir, -, -, henc, -, hpack, hlen⟩ | ⟨e, henc, -⟩ := enc_cases x
  · rw [assembleOne_of_enc_ok henc, hpack] at hx
    cases hx
    simp only [asmStep, (enabled_iff s).2 h, if_true, henc, hpack, hlen]
  · rw [assembleOne_of_enc_error henc] at hx
    cases hx

/-- Presenting a record is ASM's step on ENC's answer, its name in the table or not (42_assembly.md R79; 40_encoder.md R50). -/
theorem present_instr (x : SymInstr) (s : State) : present (.instr x) s = asmStep (enc x) s := by
  cases hi : instrOf x with
  | none => simp only [present, hi, enc_of_opRow_none x ((instrOf_eq_none_iff x).1 hi)]
  | some i => simp only [present, hi, exec_eq_asmStep, toSym_of_instrOf hi]

/-- An instruction of the table in DONE and ABORTED (42_assembly.md R81). -/
theorem exec_of_not_run (i : Instr) {s : State} (h : s.status ≠ .run) : exec i s = .next s := by
  rw [exec_eq_asmStep, asmStep_of_not_run _ h]

/-- An instruction of the table that ENC does not accept, in RUN (60_exceptions.md R93). -/
theorem exec_of_enc_error {i : Instr} {s : State} {e : AsmError} (h : s.status = .run) (he : enc i.toSym = .error e) :
    exec i s = .next (s.withError e) := by
  rw [exec_eq_asmStep, asmStep_of_error h (assembleOne_of_enc_error he)]

/-- A valid instruction of the table, in RUN (42_assembly.md R79). -/
theorem exec_of_wellFormed {i : Instr} {s : State} (h : s.status = .run) (hwf : i.wellFormed = true) :
    exec i s = .next (s.withEmitted (encode i) (encode i).length) := by
  obtain ⟨ir, henc, -, hpack, -⟩ := enc_of_wellFormed hwf
  rw [exec_eq_asmStep, asmStep_of_ok h ((assembleOne_of_enc_ok henc).trans hpack)]

/-- Everything an instruction of the table can do (42_assembly.md R79, R81; 60_exceptions.md R93). -/
theorem exec_cases (i : Instr) (s : State) :
    (s.status ≠ .run ∧ exec i s = .next s) ∨
    (s.status = .run ∧ i.wellFormed = true ∧ exec i s = .next (s.withEmitted (encode i) (encode i).length)) ∨
    (s.status = .run ∧ i.wellFormed = false ∧ ∃ e, exec i s = .next (s.withError e)) := by
  by_cases h : s.status = .run
  case neg => exact .inl ⟨h, exec_of_not_run i h⟩
  case pos =>
    cases hwf : i.wellFormed with
    | true => exact .inr (.inl ⟨h, rfl, exec_of_wellFormed h hwf⟩)
    | false =>
      obtain ⟨e, henc, -⟩ := enc_of_not_wellFormed hwf
      exact .inr (.inr ⟨h, rfl, e, exec_of_enc_error h henc⟩)

/-- Everything a step does: nothing is presented, or one item of the schedule takes effect (10_state.md R15, 42_assembly.md R83). -/
theorem step_cases (s : State) :
    (s.input = [] ∧ step s = .next s) ∨
    (∃ e rest, s.input = e :: rest ∧ step s = present e (s.withInput rest)) := by
  cases h : s.input with
  | nil => exact .inl ⟨rfl, step_nil s h⟩
  | cons e rest => exact .inr ⟨e, rest, rfl, step_cons s e rest h⟩

/-- Everything presenting a record does (42_assembly.md R79, R81). -/
theorem present_instr_cases (x : SymInstr) (s : State) :
    (s.status ≠ .run ∧ present (.instr x) s = .next s) ∨
    (s.status = .run ∧ ∃ i, i.wellFormed = true ∧ assembleOne x = .ok (encode i) ∧
      present (.instr x) s = .next (s.withEmitted (encode i) (encode i).length)) ∨
    (s.status = .run ∧ ∃ e, isEncError e = true ∧ assembleOne x = .error e ∧
      present (.instr x) s = .next (s.withError e)) := by
  rw [present_instr]
  by_cases h : s.status = .run
  case neg => exact .inl ⟨h, asmStep_of_not_run _ h⟩
  case pos =>
    obtain ⟨i, -, hwf, hx⟩ | ⟨e, hx, he⟩ := assembleOne_cases x
    · exact .inr (.inl ⟨h, i, hwf, hx, asmStep_of_ok h hx⟩)
    · exact .inr (.inr ⟨h, e, he, hx, asmStep_of_error h hx⟩)

end Sys2Proof.Machine
end

section
/-! SUPPORT. The sequencer's invariant, read as facts and kept by each update of the state (10_state.md R20 to R22). -/

namespace Sys2Proof.Machine

theorem seqInv_iff (s : State) :
    seqInv s = true ↔ s.off = s.emitted.length ∧ (∃ is, parseImage s.emitted = some is ∧ is.length = s.pos) ∧
      abortedHasEncError s = true := by
  simp only [seqInv, offCountsBytes, imageParses, Bool.and_eq_true, decide_eq_true_eq, Option.map_eq_some_iff, and_assoc]

theorem abortedHasEncError_of_not_aborted {s : State} (h : s.status ≠ .aborted) : abortedHasEncError s = true := by
  cases hs : s.status with
  | aborted => exact absurd hs h
  | run => simp only [abortedHasEncError, hs]
  | done => simp only [abortedHasEncError, hs]

/-- The invariant reads the registers and the emitted bytes only. -/
theorem seqInv_congr {s t : State} (hpos : t.pos = s.pos) (hoff : t.off = s.off) (hst : t.status = s.status)
    (herr : t.err = s.err) (hem : t.emitted = s.emitted) : seqInv t = seqInv s := by
  simp only [seqInv, offCountsBytes, imageParses, abortedHasEncError, hpos, hoff, hst, herr, hem]

/-- One more instruction keeps the invariant: the parse of its bytes goes behind the parse of the image (30_encoding.md R44). -/
theorem seqInv_withEmitted {s : State} (h : seqInv s = true) (hrun : s.status = .run) {i : Instr}
    (hwf : i.wellFormed = true) : seqInv (s.withEmitted (encode i) (encode i).length) = true := by
  obtain ⟨hoff, ⟨is, hparse, hpos⟩, -⟩ := (seqInv_iff s).1 h
  refine (seqInv_iff _).2 ⟨?off, ⟨is ++ [i.dropUnused], ?parse, ?pos⟩, ?status⟩
  case off => rw [withEmitted_off, withEmitted_emitted, List.length_append, hoff]
  case parse => exact parseImage_append _ _ _ _ hparse (parseImage_of_decode _ _ (decode_encode hwf))
  case pos => rw [withEmitted_pos, List.length_append, List.length_singleton, hpos]
  case status => exact abortedHasEncError_of_not_aborted (by rw [withEmitted_status, hrun]; decide)

/-- Taking one of ENC's errors keeps the invariant (60_exceptions.md R93). -/
theorem seqInv_withError {s : State} (h : seqInv s = true) {e : AsmError} (he : isEncError e = true) :
    seqInv (s.withError e) = true := by
  obtain ⟨hoff, hparse, -⟩ := (seqInv_iff s).1 h
  exact (seqInv_iff _).2 ⟨hoff, hparse, he⟩

theorem seqInv_applyEnd {s : State} (h : seqInv s = true) : seqInv (applyEnd s) = true := by
  rw [applyEnd_eq]
  split
  · obtain ⟨hoff, hparse, -⟩ := (seqInv_iff s).1 h
    exact (seqInv_iff _).2 ⟨hoff, hparse, rfl⟩
  · exact h

theorem seqInv_applyReset (s : State) : seqInv (applyReset s) = true :=
  (seqInv_iff _).2 ⟨rfl, ⟨[], rfl, rfl⟩, rfl⟩

/-- Every presented item keeps the invariant. -/
theorem seqInv_present {e : Event} {s t : State} (h : seqInv s = true) (ht : present e s = .next t) : seqInv t = true := by
  cases e with
  | instr x =>
    obtain ⟨-, hx⟩ | ⟨hrun, i, hwf, -, hx⟩ | ⟨-, e, he, -, hx⟩ := present_instr_cases x s <;> rw [hx] at ht <;> cases ht
    · exact h
    · exact seqInv_withEmitted h hrun hwf
    · exact seqInv_withError h he
  | endProgram => cases ht; exact seqInv_applyEnd h
  | reset => cases ht; exact seqInv_applyReset s
  | benchEnc x => cases ht; exact (seqInv_congr rfl rfl rfl rfl rfl).trans h
  | benchPack ir =>
    obtain ⟨bs, -, hx⟩ | ⟨e, -, hx⟩ | ⟨-, hx⟩ := benchPack_cases ir s <;> rw [present, hx] at ht <;> cases ht
    · exact (seqInv_congr rfl rfl rfl rfl rfl).trans h
    · exact (seqInv_congr rfl rfl rfl rfl rfl).trans h

/-- What parses has three or four bytes an instruction (30_encoding.md R37). -/
theorem length_of_parseFuel {n : Nat} {bs : List Byte} {is : List Instr} (h : parseFuel n bs = some is) :
    3 * is.length ≤ bs.length ∧ bs.length ≤ 4 * is.length := by
  induction n generalizing bs is with
  | zero => cases bs <;> cases h; exact ⟨le_rfl, le_rfl⟩
  | succ n ih =>
    cases bs with
    | nil => cases h; exact ⟨le_rfl, le_rfl⟩
    | cons b bs =>
      rw [parseFuel] at h
      split at h
      · cases h
      · next i rest hd =>
        obtain ⟨js, hjs, rfl⟩ := Option.map_eq_some_iff.1 h
        have := decode_rest_length _ _ _ hd
        have := ih hjs
        rw [List.length_cons (as := js)]
        omega

end Sys2Proof.Machine
end

section
/-! PROOFS of the statements about the sequencer's invariant (10_state.md R20 to R22, 42_assembly.md R79). -/

namespace Sys2Proof.Proofs

open Sys2Proof.Machine

/-- Settles O40: a step presents one item to a state with the same registers, and every item keeps the invariant. -/
theorem sequencerInvariantKept : Obligations.SequencerInvariantKept := by
  intro s t h ht
  obtain ⟨-, hs⟩ | ⟨e, rest, -, hs⟩ := step_cases s <;> rw [hs] at ht
  · cases ht
    exact h
  · have hpast : seqInv (s.withInput rest) = true := (seqInv_congr rfl rfl rfl rfl rfl).trans h
    exact seqInv_present hpast ht

/-- Settles O41. -/
theorem sequencerInvariantAtReset : Obligations.SequencerInvariantAtReset :=
  (seqInv_iff _).2 ⟨rfl, ⟨[], rfl, rfl⟩, rfl⟩

/-- Settles O42: `off` bytes parse into `pos` instructions of three or four bytes. -/
theorem countersBoundEachOther : Obligations.CountersBoundEachOther := by
  intro s h
  obtain ⟨hoff, ⟨is, hparse, hpos⟩, -⟩ := (seqInv_iff s).1 h
  rw [hoff, ← hpos]
  exact length_of_parseFuel hparse

end Sys2Proof.Proofs
end

section
/-! SUPPORT. The two ways an operand fails, for an instruction of the table, and the field ENC does not read
(40_encoder.md R52, R53, R60). -/

namespace Sys2Proof

open Machine

@[simp] theorem op_mkInstr (op : Op) (c a : Option Int) : (mkInstr op c a).op = op := by
  cases op <;> rfl

@[simp] theorem operand_mkInstr (op : Op) (c a : Option Int) :
    (mkInstr op c a).operand = selectField (fieldOf (formatOfOp op)) c a := by
  cases op <;> rfl

/-- `load` alone has the Load format (10_state.md R13). -/
theorem formatOfOp_of_ne_load {op : Op} (h : op ≠ .load) : formatOfOp op = .short := by
  cases op with
  | load => exact absurd rfl h
  | read => rfl
  | write => rfl
  | rol => rfl

namespace Machine

/-- The operand stage reads the selected field only (40_encoder.md R52, R60). -/
theorem encodeOperand_congr (o : Opcode) (f : Format) {c a c' a' : Option Int}
    (h : selectField (fieldOf f) c a = selectField (fieldOf f) c' a') :
    encodeOperand o f c a = encodeOperand o f c' a' := by
  simp only [encodeOperand, h]

/-- ENC does not read the unused field (40_encoder.md R60). -/
theorem enc_toSym_dropUnused (i : Instr) : enc i.toSym = enc i.dropUnused.toSym := by
  rw [enc_toSym, enc_toSym, op_dropUnused]
  refine encodeOperand_congr _ _ ?_
  have h := operand_dropUnused i
  rw [Instr.operand, op_dropUnused] at h
  exact h.symm

/-- The opcodes that ENC answers, each with its format's size (10_state.md R9, R17). -/
theorem opcode_and_width_of_enc_ok {x : SymInstr} {ir : IR} (h : enc x = .ok ir) :
    (ir.opcode = 31 ∧ ir.byteWidth = 4) ∨
      ((ir.opcode = 121 ∨ ir.opcode = 26 ∨ ir.opcode = 8) ∧ ir.byteWidth = 3) := by
  obtain ⟨r, v, hr, -, -, rfl⟩ := enc_ok x ir h
  dsimp only
  rw [(name_and_opcode_of_opRow hr).2]
  cases r.op with
  | load => exact .inl ⟨rfl, rfl⟩
  | read => exact .inr ⟨.inl rfl, rfl⟩
  | write => exact .inr ⟨.inr (.inl rfl), rfl⟩
  | rol => exact .inr ⟨.inr (.inr rfl), rfl⟩

/-- An absent operand is taken as an error, in RUN (40_encoder.md R52, 60_exceptions.md R93). -/
theorem exec_of_absent {i : Instr} {s : State} (h : s.status = .run) (hop : i.operand = none) :
    exec i s = .next (s.withError (.missingOperand (fieldOf (formatOfOp i.op)))) :=
  exec_of_enc_error h ((enc_toSym i).trans (encodeOperand_of_absent hop))

/-- An operand out of range is taken as an error, in RUN (40_encoder.md R53, 60_exceptions.md R93). -/
theorem exec_of_out_of_range {i : Instr} {s : State} {v : Int} (h : s.status = .run) (hop : i.operand = some v)
    (hv : v < 0 ∨ maxOperand (formatOfOp i.op) < v) :
    exec i s = .next (s.withError (.operandOutOfRange v (fieldOf (formatOfOp i.op)) (opBits (formatOfOp i.op)))) :=
  exec_of_enc_error h ((enc_toSym i).trans (encodeOperand_of_not_inRange hop ((not_inRange_iff _ v).2 hv)))

/-- PACK refuses exactly the IRs of legal size that break WF_IR (41_packer.md R71). -/
theorem pack_eq_refused_iff (ir : IR) :
    pack ir = .refused ↔ (ir.byteWidth = 3 ∨ ir.byteWidth = 4) ∧ wfIR ir = false := by
  obtain ⟨h3, h4, hp⟩ | ⟨hw, hwf, hp⟩ | ⟨hwf, hp⟩ := pack_cases ir
  · simp [hp, h3, h4]
  · simp [hp, hw, hwf]
  · simp [hp, hwf]

/-- A valid operand makes the instruction valid (30_encoding.md R46). -/
theorem wellFormed_of_operand {i : Instr} {v : Int} (hop : i.operand = some v) (h0 : 0 ≤ v)
    (hmax : v ≤ maxOperand (formatOfOp i.op)) : i.wellFormed = true :=
  (wellFormed_iff i).2 ⟨v, hop, (inRange_iff _ v).2 ⟨h0, hmax⟩⟩

end Machine

end Sys2Proof
end

section
/-! PROOFS of the statements about ENC's answers, the packed value and PACK (40_encoder.md R49, R60; 41_packer.md R64, R66,
R71, R72). -/

namespace Sys2Proof.Proofs

open Sys2Proof.Machine

/-- Settles O14: the name's row pairs opcode and format, and ENC's errors are not PACK's. -/
theorem encAnswersWellFormedIR : Obligations.EncAnswersWellFormedIR := by
  intro x
  obtain ⟨-, ir, -, -, henc, hwf, -⟩ | herr := enc_cases x
  · exact .inl ⟨ir, henc, hwf, opcode_and_width_of_enc_ok henc⟩
  · exact .inr herr

/-- Settles O15: ENC reads the same field of both, and the meaning is ASM's step on ENC's answer. -/
theorem unusedFieldIgnored : Obligations.UnusedFieldIgnored := by
  intro i s
  refine ⟨?_, enc_toSym_dropUnused i⟩
  rw [exec_eq_asmStep, exec_eq_asmStep, enc_toSym_dropUnused]

/-- Settles O22: the OR is a sum, so opcode and operand are remainder and quotient. -/
theorem packValueLaws : Obligations.PackValueLaws := by
  intro v o ho
  have hsum : packValue v o = v * 128 + o := packValue_of_lt v (BitVec.ofNatLT o ho)
  rw [hsum]
  omega

/-- Settles O23: the bytes hold the value modulo what fits them. -/
theorem serializeLossless : Obligations.SerializeLossless := fun n v h =>
  ⟨serialize_length v n, by rw [leValue_serialize, Nat.mod_eq_of_lt h]⟩

/-- Settles O19: the first of PACK's cases. -/
theorem packSizeCheck : Obligations.PackSizeCheck := by
  intro ir h3 h4
  unfold pack
  exact if_pos ⟨h3, h4⟩

/-- Settles O20: past the size check WF_IR decides, and PACK alone passes the refusal on. -/
theorem packRefusesIllFormed : Obligations.PackRefusesIllFormed := by
  intro ir s rest hw hwf
  have hpack := (pack_eq_refused_iff ir).2 ⟨hw, hwf⟩
  refine ⟨hpack, fun hs => ?_⟩
  rw [step_cons s _ _ hs, present, benchPack, hpack]

end Sys2Proof.Proofs
end

section
/-! PROOFS of the statements about the four instructions' meanings (42_assembly.md R79, R81; 60_exceptions.md R93). -/

namespace Sys2Proof.Proofs

open Sys2Proof.Machine

/-- Settles O24: a valid `load` emits its bytes. -/
theorem loadAssembles : Obligations.LoadAssembles := fun _ v a hs h0 hmax =>
  exec_of_wellFormed hs (wellFormed_of_operand (i := .load (some v) a) rfl h0 hmax)

/-- Settles O25: a valid `read` emits its bytes. -/
theorem readAssembles : Obligations.ReadAssembles := fun _ v c hs h0 hmax =>
  exec_of_wellFormed hs (wellFormed_of_operand (i := .read c (some v)) rfl h0 hmax)

/-- Settles O26: a valid `write` emits its bytes. -/
theorem writeAssembles : Obligations.WriteAssembles := fun _ v c hs h0 hmax =>
  exec_of_wellFormed hs (wellFormed_of_operand (i := .write c (some v)) rfl h0 hmax)

/-- Settles O27: a valid `rol` emits its bytes. -/
theorem rolAssembles : Obligations.RolAssembles := fun _ v c hs h0 hmax =>
  exec_of_wellFormed hs (wellFormed_of_operand (i := .rol c (some v)) rfl h0 hmax)

/-- Settles O28: the operand stage's two errors, for `load` and for the Short format. -/
theorem operandErrorsAbort : Obligations.OperandErrorsAbort := by
  intro s hs
  refine ⟨?loadAbsent, ?loadRange, ?shortAbsent, ?shortRange⟩
  case loadAbsent => exact fun a => exec_of_absent (i := .load none a) hs rfl
  case loadRange => exact fun v a hv => exec_of_out_of_range (i := .load (some v) a) hs rfl hv
  case shortAbsent =>
    intro op c hop
    have hf := formatOfOp_of_ne_load hop
    have h := exec_of_absent (i := mkInstr op c none) hs (by rw [operand_mkInstr, hf]; rfl)
    rwa [op_mkInstr, hf] at h
  case shortRange =>
    intro op c v hop hv
    have hf := formatOfOp_of_ne_load hop
    have h := exec_of_out_of_range (i := mkInstr op c (some v)) hs (by rw [operand_mkInstr, hf]; rfl)
      (by rwa [op_mkInstr, hf])
    rwa [op_mkInstr, hf] at h

/-- Settles O29: in each of the three cases of the meaning, field by field. -/
theorem execFrame : Obligations.ExecFrame := by
  intro i s t ht
  obtain ⟨hs, hx⟩ | ⟨hs, hwf, hx⟩ | ⟨hs, hwf, e, hx⟩ := exec_cases i s <;> rw [hx] at ht <;> cases ht
  · exact ⟨rfl, rfl, rfl, fun _ _ => rfl, fun _ _ _ => rfl, fun _ h => absurd h hs, fun _ => ⟨rfl, rfl, rfl⟩,
      fun _ => ⟨rfl, rfl⟩, fun _ h => absurd h hs⟩
  · have notFailed : ¬ (i.wellFormed = false ∨ s.status ≠ .run) := by simp [hs, hwf]
    have before (k : Nat) (hk : k < s.emitted.length) : (s.emitted ++ encode i)[k]? = s.emitted[k]? :=
      List.getElem?_append_left hk
    have behind (k : Nat) (hk : (s.emitted ++ encode i).length ≤ k) : (s.emitted ++ encode i)[k]? = s.emitted[k]? := by
      rw [List.getElem?_eq_none hk, List.getElem?_eq_none (by rw [List.length_append] at hk; omega)]
    refine ⟨rfl, rfl, rfl, before, fun hoff k hk => ?_, fun _ _ => ⟨rfl, rfl⟩, fun h => absurd h notFailed,
      fun _ => ⟨rfl, rfl⟩, fun h => absurd (.inl h) notFailed⟩
    rw [hoff, withEmitted_off, hoff, ← List.length_append] at hk
    exact hk.elim (before k) (behind k)
  · have failed : ¬ (i.wellFormed = true ∨ s.status ≠ .run) := by simp [hs, hwf]
    exact ⟨rfl, rfl, rfl, fun _ _ => rfl, fun _ _ _ => rfl, fun h => absurd (.inl h) failed, fun _ => ⟨rfl, rfl, rfl⟩,
      fun h => absurd h failed, fun _ _ => rfl⟩

/-- Settles O30: whether the instruction is valid does not depend on the state, and neither do its bytes. -/
theorem encodingIndependentOfState : Obligations.EncodingIndependentOfState := by
  intro i s t s' t' hs ht hs' ht'
  cases hwf : i.wellFormed with
  | true =>
    rw [exec_of_wellFormed hs hwf] at hs'
    rw [exec_of_wellFormed ht hwf] at ht'
    cases hs'
    cases ht'
    simp [hs, ht]
  | false =>
    obtain ⟨e, henc, -⟩ := enc_of_not_wellFormed hwf
    rw [exec_of_enc_error hs henc] at hs'
    rw [exec_of_enc_error ht henc] at ht'
    cases hs'
    cases ht'
    simp

end Sys2Proof.Proofs
end

section
/-! PROOFS of the statements about the step: the presented records, `end`, reset, and the blocks used alone
(42_assembly.md R79 to R83; 60_exceptions.md R96; 70_reset_and_hazards.md R101). -/

namespace Sys2Proof.Proofs

open Sys2Proof.Machine

/-- Settles O21: both words evaluate, PACK alone answers them, and no opcode of the table is 0. -/
theorem packZeroIsOrdinary : Obligations.PackZeroIsOrdinary := by
  refine ⟨by decide, by decide, ?three, ?four, ?enc⟩
  case three => exact fun s rest hs => step_cons s _ _ hs
  case four => exact fun s rest hs => step_cons s _ _ hs
  case enc =>
    intro x ir h
    have hop := opcode_and_width_of_enc_ok h
    omega

/-- Settles O31: the item presented next takes effect on the state past it. -/
theorem stepRunsDecodedInstruction : Obligations.StepRunsDecodedInstruction := by
  refine ⟨fun s x rest i hs hi => ?record, fun s nbits w i hi => ?word⟩
  case record => simp only [step_cons s _ _ hs, present, hi]
  case word =>
    have hfetch : s.withFetchWord nbits w = { s with status := .run, input := .instr i.toSym :: s.input } := by
      simp only [State.withFetchWord, hi]
    rw [hfetch, step_cons _ _ _ rfl]
    simp only [present, instrOf_toSym]
    rfl

/-- Settles O32: presenting a record is ASM's step on ENC's answer, and ENC's IRs satisfy WF_IR. -/
theorem stepIsEncThenPack : Obligations.StepIsEncThenPack := by
  intro s x rest hin hs
  rw [step_cons s _ _ hin, present_instr]
  refine ⟨fun e he => asmStep_of_error hs (assembleOne_of_enc_error he), fun ir hir => ?_⟩
  obtain ⟨bs, hpack, hlen⟩ := pack_length_of_wfIR ir (enc_ok_wfIR x ir hir).1
  exact ⟨bs, hpack, hlen, asmStep_of_ok hs ((assembleOne_of_enc_ok hir).trans hpack)⟩

/-- Settles O33: no step of ASM is enabled, and `end` looks at the status first. -/
theorem notEnabledChangesNothing : Obligations.NotEnabledChangesNothing := by
  intro s hs
  refine ⟨fun i => exec_of_not_run i hs, fun x rest hin => ?_, fun rest hin => ?_⟩
  · rw [step_cons s _ _ hin, present_instr]
    exact asmStep_of_not_run (s := s.withInput rest) _ hs
  · rw [step_cons s _ _ hin, present, applyEnd_eq, withInput_status, if_neg hs]
    rfl

/-- Settles O34. -/
theorem endCompletesRun : Obligations.EndCompletesRun := by
  intro s rest hin hs
  rw [step_cons s _ _ hin, present, applyEnd_eq, withInput_status, if_pos hs]
  exact ⟨rfl, rfl⟩

/-- Settles O35: reset's fields, on the state past the presentation. -/
theorem resetAtAnyTime : Obligations.ResetAtAnyTime := fun s rest hin =>
  ⟨applyReset (s.withInput rest), step_cons s _ _ hin, rfl, rfl, rfl, rfl, rfl, rfl, rfl⟩

/-- Settles O36. -/
theorem resetRegisters : Obligations.ResetRegisters := ⟨rfl, rfl, rfl, rfl⟩

/-- Settles O38: ENC alone and PACK alone append their answer to `bench`. -/
theorem blocksUsedAlone : Obligations.BlocksUsedAlone := by
  intro s rest
  refine ⟨fun x hin => step_cons s _ _ hin, fun ir hin hwf => ?packs, fun ir hin h3 h4 => ?fails⟩
  case packs =>
    obtain ⟨bs, hpack, -⟩ := pack_length_of_wfIR ir hwf
    refine ⟨bs, hpack, ?_⟩
    rw [step_cons s _ _ hin, present, benchPack, hpack]
    rfl
  case fails =>
    rw [step_cons s _ _ hin, present, benchPack, packSizeCheck ir h3 h4]
    rfl

end Sys2Proof.Proofs
end

section
/-! SUPPORT. What no item but reset changes in DONE and ABORTED (60_exceptions.md R96). -/

namespace Sys2Proof.Machine

theorem sameSequencer_iff (s t : State) :
    sameSequencer s t = true ↔ s.pos = t.pos ∧ s.off = t.off ∧ s.status = t.status ∧ s.err = t.err ∧
      s.emitted = t.emitted ∧ s.past = t.past := by
  simp only [sameSequencer, Bool.and_eq_true, decide_eq_true_eq, and_assoc]

/-- No item but reset changes the registers of DONE and ABORTED (60_exceptions.md R96, 42_assembly.md R81). -/
theorem sameSequencer_of_present {e : Event} {s t : State} (hs : s.status ≠ .run) (he : e ≠ .reset)
    (ht : present e s = .next t) : sameSequencer s t = true := by
  cases e with
  | instr x =>
    rw [present_instr, asmStep_of_not_run _ hs] at ht
    cases ht
    exact (sameSequencer_iff s s).2 ⟨rfl, rfl, rfl, rfl, rfl, rfl⟩
  | endProgram =>
    rw [present, applyEnd_eq, if_neg hs] at ht
    cases ht
    exact (sameSequencer_iff s s).2 ⟨rfl, rfl, rfl, rfl, rfl, rfl⟩
  | reset => exact absurd rfl he
  | benchEnc x =>
    cases ht
    exact (sameSequencer_iff _ _).2 ⟨rfl, rfl, rfl, rfl, rfl, rfl⟩
  | benchPack ir =>
    obtain ⟨bs, -, hx⟩ | ⟨e, -, hx⟩ | ⟨-, hx⟩ := benchPack_cases ir s <;> rw [present, hx] at ht <;> cases ht <;>
      exact (sameSequencer_iff _ _).2 ⟨rfl, rfl, rfl, rfl, rfl, rfl⟩

/-- Every item completes but the IR that PACK alone refuses (41_packer.md R71, 70_reset_and_hazards.md R105). -/
theorem present_completes (e : Event) (s : State) :
    (∃ t, present e s = .next t) ∨
    (present e s = .refused .illFormedIR ∧ ∃ ir, e = .benchPack ir ∧ pack ir = .refused) := by
  cases e with
  | instr x =>
    obtain ⟨-, hx⟩ | ⟨-, i, -, -, hx⟩ | ⟨-, e, -, -, hx⟩ := present_instr_cases x s <;> exact .inl ⟨_, hx⟩
  | endProgram => exact .inl ⟨_, rfl⟩
  | reset => exact .inl ⟨_, rfl⟩
  | benchEnc x => exact .inl ⟨_, rfl⟩
  | benchPack ir =>
    obtain ⟨bs, -, hx⟩ | ⟨e, -, hx⟩ | ⟨hp, hx⟩ := benchPack_cases ir s
    · exact .inl ⟨_, hx⟩
    · exact .inl ⟨_, hx⟩
    · exact .inr ⟨hx, ir, rfl, hp⟩

end Sys2Proof.Machine
end

section
/-! PROOFS of the statements about every step (60_exceptions.md R96, 70_reset_and_hazards.md R105, 42_assembly.md R84) and of
the error codes (60_exceptions.md R85). -/

namespace Sys2Proof.Proofs

open Sys2Proof.Machine

/-- Settles O37: the step presents one item, and only reset changes the registers. -/
theorem stickyUntilReset : Obligations.StickyUntilReset := by
  intro s t hs hreset ht
  obtain ⟨-, hx⟩ | ⟨e, rest, hin, hx⟩ := step_cases s <;> rw [hx] at ht
  · cases ht
    exact (sameSequencer_iff s s).2 ⟨rfl, rfl, rfl, rfl, rfl, rfl⟩
  · have he : e ≠ .reset := fun he => hreset rest (he ▸ hin)
    have hpast : sameSequencer (s.withInput rest) t = true := sameSequencer_of_present hs he ht
    exact hpast

/-- Settles O39: every item completes but the one PACK refuses, and PACK refuses only what breaks WF_IR. -/
theorem stepStopsOnlyOnIllFormedIR : Obligations.StepStopsOnlyOnIllFormedIR := by
  intro s
  obtain ⟨-, hx⟩ | ⟨e, rest, hin, hx⟩ := step_cases s
  · exact .inl ⟨s, hx⟩
  · rw [hx]
    obtain hnext | ⟨hstop, ir, rfl, hp⟩ := present_completes e (s.withInput rest)
    · exact .inl hnext
    · exact .inr ⟨hstop, ir, rest, hin, (pack_eq_refused_iff ir).1 hp⟩

/-- Settles O52: the bounded step looks at the counters of the unbounded step's state. -/
theorem boundedCountersAgree : Obligations.BoundedCountersAgree := by
  intro p s t ht
  have hb : stepBounded p s = if countersFit p t then .next t else .refused .counterLimit := by
    simp only [stepBounded, ht]
  rw [hb]
  refine ⟨fun hfit => ?_, fun hfit => by rw [hfit]; rfl⟩
  obtain ⟨hpos, hoff⟩ : t.pos < 2 ^ p.posw ∧ t.off < 2 ^ p.offw := by simpa [countersFit] using hfit
  exact ⟨by rw [hfit]; rfl, (BitVec.toNat_ofNat _ _).trans (Nat.mod_eq_of_lt hpos),
    (BitVec.toNat_ofNat _ _).trans (Nat.mod_eq_of_lt hoff)⟩

/-- Settles O53. -/
theorem errorCodes : Obligations.ErrorCodes :=
  ⟨rfl, fun _ => rfl, fun _ _ _ => rfl, fun _ => rfl, fun _ => rfl⟩

end Sys2Proof.Proofs
end

section
/-! SUPPORT. Programs: what assembles is a list of valid instructions' bytes, and what does not has a first failing
instruction (42_assembly.md R74 to R78). -/

namespace Sys2Proof.Machine

/-- Every program succeeds throughout or has a first failing instruction (42_assembly.md R76). -/
theorem all_ok_or_first_error (program : List SymInstr) :
    (∃ bss : List (List Byte), program.map assembleOne = bss.map PackResult.ok) ∨
    (∃ (before : List SymInstr) (x : SymInstr) (after : List SymInstr) (bss : List (List Byte)) (e : AsmError),
      program = before ++ x :: after ∧ before.map assembleOne = bss.map PackResult.ok ∧ assembleOne x = .error e ∧
        isEncError e = true) := by
  induction program with
  | nil => exact .inl ⟨[], rfl⟩
  | cons y ys ih =>
    obtain ⟨i, -, -, hy⟩ | ⟨e, hy, he⟩ := assembleOne_cases y
    · obtain ⟨bss, h⟩ | ⟨before, x, after, bss, e, rfl, h, hx, he⟩ := ih
      · exact .inl ⟨encode i :: bss, by rw [List.map_cons, List.map_cons, hy, h]⟩
      · exact .inr ⟨y :: before, x, after, encode i :: bss, e, rfl, by rw [List.map_cons, List.map_cons, hy, h], hx, he⟩
    · exact .inr ⟨[], y, ys, [], e, rfl, rfl, hy, he⟩

/-- An image is the bytes of instructions that all succeed (42_assembly.md R74, R77). -/
theorem exists_bytes_of_assemble_ok {program : List SymInstr} {image : List Byte} (h : assemble program = .ok image) :
    ∃ bss : List (List Byte), program.map assembleOne = bss.map PackResult.ok ∧ image = bss.flatten := by
  obtain ⟨bss, hok⟩ | ⟨before, x, after, bss, e, rfl, hok, hx, -⟩ := all_ok_or_first_error program
  · rw [assemble_of_ok hok] at h
    cases h
    exact ⟨bss, hok, rfl⟩
  · rw [assemble_of_first_error after hok hx] at h
    cases h

/-- Instructions that all succeed are the valid instructions whose bytes they give (42_assembly.md R74). -/
theorem exists_instrs_of_ok {program : List SymInstr} {bss : List (List Byte)}
    (h : program.map assembleOne = bss.map PackResult.ok) :
    ∃ is : List Instr, program.map instrOf = is.map some ∧ (∀ i ∈ is, i.wellFormed = true) ∧ bss = is.map encode := by
  induction program generalizing bss with
  | nil => exact ⟨[], rfl, List.forall_mem_nil _, List.map_eq_nil_iff.1 h.symm⟩
  | cons x xs ih =>
    obtain ⟨bs, bss, rfl, hx, hxs⟩ := List.map_eq_cons_iff.1 h.symm
    obtain ⟨i, hi, hwf, rfl⟩ := exists_instrOf_of_assembleOne hx.symm
    obtain ⟨is, his, hall, rfl⟩ := ih hxs.symm
    exact ⟨i :: is, by rw [List.map_cons, List.map_cons, hi, his], List.forall_mem_cons.2 ⟨hwf, hall⟩, rfl⟩

/-- The bytes of valid instructions parse into them (30_encoding.md R44). -/
theorem parseImage_encode {is : List Instr} (h : ∀ i ∈ is, i.wellFormed = true) :
    parseImage (is.map encode).flatten = some (is.map Instr.dropUnused) := by
  induction is with
  | nil => rfl
  | cons i is ih =>
    obtain ⟨hi, his⟩ := List.forall_mem_cons.1 h
    exact parseImage_append _ _ _ _ (parseImage_of_decode _ _ (decode_encode hi)) (ih his)

/-! ### The layout (20_memory.md R29) -/

/-- The bytes of an instruction are as many as its name says (20_memory.md R29, 30_encoding.md R37). -/
theorem widthOf_of_assembleOne {x : SymInstr} {bs : List Byte} (h : assembleOne x = .ok bs) :
    bs.length = widthOf x ∧ widthOf x = if x.op = "load" then 4 else 3 := by
  obtain ⟨i, hi, -, rfl⟩ := exists_instrOf_of_assembleOne h
  rw [← toSym_of_instrOf hi]
  cases i <;> exact ⟨rfl, rfl⟩

/-- The widths of instructions that all succeed are the lengths of their bytes. -/
theorem map_widthOf_of_ok {program : List SymInstr} {bss : List (List Byte)}
    (h : program.map assembleOne = bss.map PackResult.ok) : program.map widthOf = bss.map List.length := by
  induction program generalizing bss with
  | nil => rw [List.map_eq_nil_iff.1 h.symm]; rfl
  | cons x xs ih =>
    obtain ⟨bs, bss, rfl, hx, hxs⟩ := List.map_eq_cons_iff.1 h.symm
    rw [List.map_cons, List.map_cons, (widthOf_of_assembleOne hx.symm).1, ih hxs.symm]

/-- Instruction `k` starts where the bytes of the instructions before it end (20_memory.md R29). -/
theorem startOffset_of_ok {program : List SymInstr} {bss : List (List Byte)}
    (h : program.map assembleOne = bss.map PackResult.ok) (k : Nat) :
    startOffset program k = ((bss.map List.length).take k).sum := by
  rw [startOffset, List.map_take, map_widthOf_of_ok h]

/-- Behind instructions that all succeed the next one starts at the number of their bytes (20_memory.md R29). -/
theorem startOffset_append_of_ok {before : List SymInstr} {bss : List (List Byte)}
    (h : before.map assembleOne = bss.map PackResult.ok) (rest : List SymInstr) :
    startOffset (before ++ rest) before.length = bss.flatten.length := by
  rw [startOffset, List.take_left, map_widthOf_of_ok h, List.length_flatten]

/-- Four bytes for each `load`, three for each other instruction (30_encoding.md R37). -/
theorem sum_widthOf {program : List SymInstr} (h : ∀ x ∈ program, widthOf x = if x.op = "load" then 4 else 3) :
    (program.map widthOf).sum = 4 * (program.filter (fun x => decide (x.op = "load"))).length +
      3 * (program.filter (fun x => decide (x.op ≠ "load"))).length := by
  induction program with
  | nil => rfl
  | cons x xs ih =>
    obtain ⟨hx, hxs⟩ := List.forall_mem_cons.1 h
    rw [List.map_cons, List.sum_cons, ih hxs, hx]
    by_cases hload : x.op = "load"
    · simp [hload]; omega
    · simp [hload]; omega

end Sys2Proof.Machine
end

section
/-! PROOFS of the statements of 42_assembly.md R74 to R78 and 30_encoding.md R44 about programs. -/

namespace Sys2Proof.Proofs

open Sys2Proof.Machine

/-- Settles O6: the image is the bytes of valid instructions, which parse back one after another. -/
theorem imageParsesBack : Obligations.ImageParsesBack := by
  intro program image h
  obtain ⟨bss, hok, rfl⟩ := exists_bytes_of_assemble_ok h
  obtain ⟨is, his, hwf, rfl⟩ := exists_instrs_of_ok hok
  exact ⟨is, his, parseImage_encode hwf⟩

/-- Settles O44: all instructions succeed or there is a first failing one, which ENC refuses. -/
theorem assembleDecides : Obligations.AssembleDecides := by
  intro program
  obtain ⟨bss, hok⟩ | ⟨before, x, after, bss, e, rfl, hok, hx, he⟩ := all_ok_or_first_error program
  · exact .inl ⟨bss, hok, assemble_of_ok hok⟩
  · exact .inr ⟨before, x, after, bss, e, rfl, hok, hx, he, assemble_of_first_error after hok hx⟩

/-- Settles O45: the image is the concatenation of byte lists whose lengths are the instructions' widths. -/
theorem imageLayout : Obligations.ImageLayout := by
  intro program image h
  obtain ⟨bss, hok, rfl⟩ := exists_bytes_of_assemble_ok h
  have hwidths := map_widthOf_of_ok hok
  have bytesAt (k : Nat) (x : SymInstr) (hx : program[k]? = some x) :
      ∃ bs, bss[k]? = some bs ∧ assembleOne x = .ok bs := by
    have hk := congrArg (·[k]?) hok
    simp only [List.getElem?_map, hx, Option.map_some] at hk
    obtain ⟨bs, hbs, heq⟩ := Option.map_eq_some_iff.1 hk.symm
    exact ⟨bs, hbs, heq.symm⟩
  have hwidth (x : SymInstr) (hx : x ∈ program) : widthOf x = if x.op = "load" then 4 else 3 := by
    obtain ⟨k, hk⟩ := List.mem_iff_getElem?.1 hx
    obtain ⟨bs, -, hbs⟩ := bytesAt k x hk
    exact (widthOf_of_assembleOne hbs).2
  refine ⟨?count, ?total, fun k x hx => ?slot⟩
  case count => rw [List.length_flatten, ← hwidths, sum_widthOf hwidth]
  case total => rw [List.length_flatten, ← hwidths, startOffset, List.take_length]
  case slot =>
    obtain ⟨bs, hbs, hone⟩ := bytesAt k x hx
    obtain ⟨hk, rfl⟩ := List.getElem?_eq_some_iff.1 hbs
    have hlen := (widthOf_of_assembleOne hone).1
    have hnext : ((bss.map List.length).take (k + 1)).sum = ((bss.map List.length).take k).sum + bss[k].length := by
      rw [List.sum_take_succ _ _ (by rwa [List.length_map]), List.getElem_map]
    refine ⟨bss[k], hone, hlen, ?_⟩
    have hslot := List.drop_take_succ_flatten_eq_getElem bss k hk
    rwa [hnext, List.drop_take, Nat.add_sub_cancel_left, ← startOffset_of_ok hok, hlen] at hslot

end Sys2Proof.Proofs
end

section
/-! SUPPORT. The two-phase order, and the collector of results finished in any order (42_assembly.md R82, R83). -/

namespace Sys2Proof.Machine

/-- The second phase on the first one's answer: the image of the IRs, or the failure. -/
def packPhase (i : Nat) (image : List Byte) : List IR ⊕ (Nat × AsmError) → AsmResult
  | .inl irs => packAll i image irs
  | .inr (k, e) => .error k e

theorem assembleTwoPhase_eq (program : List SymInstr) :
    assembleTwoPhase program = packPhase 0 [] (encodeAll 0 program) := by
  unfold assembleTwoPhase
  cases encodeAll 0 program with
  | inl irs => rfl
  | inr f => rfl

/-- The two phases from a position give what the loop of 42_assembly.md R74 gives: PACK fails on none of ENC's IRs (R71). -/
theorem packPhase_encodeAll (program : List SymInstr) (i : Nat) (image : List Byte) :
    packPhase i image (encodeAll i program) = assembleLoop i image program := by
  induction program generalizing i image with
  | nil => rfl
  | cons x xs ih =>
    obtain ⟨j, ir, -, -, henc, -, hpack, -⟩ | ⟨e, henc, -⟩ := enc_cases x
    · rw [assembleLoop_cons_of_ok i image xs ((assembleOne_of_enc_ok henc).trans hpack), ← ih, encodeAll, henc]
      dsimp only
      cases encodeAll (i + 1) xs with
      | inl irs => simp only [packPhase, packAll, hpack]
      | inr f => rfl
    · rw [assembleLoop_cons_of_error i image xs (assembleOne_of_enc_error henc), encodeAll, henc]
      rfl

/-! ### Results in any order (42_assembly.md R82) -/

theorem insertByPosition_eq (r : Nat × PackResult) (rs : List (Nat × PackResult)) :
    insertByPosition r rs = rs.orderedInsert (·.1 ≤ ·.1) r := by
  induction rs with
  | nil => rfl
  | cons x xs ih => rw [insertByPosition, List.orderedInsert_cons, ih]

/-- Putting results into program order is sorting them by position. -/
theorem byPosition_eq (rs : List (Nat × PackResult)) : byPosition rs = rs.insertionSort (·.1 ≤ ·.1) := by
  induction rs with
  | nil => rfl
  | cons r rs ih => rw [byPosition, ih, insertByPosition_eq, List.insertionSort_cons]

theorem map_fst_positioned (program : List SymInstr) :
    (positioned program).map Prod.fst = List.range program.length := by
  rw [positioned, List.map_map, List.range_eq_range']
  exact List.zipIdx_map_snd 0 program

/-- Results of a program in any order are put into program order, their positions being distinct (42_assembly.md R82). -/
theorem byPosition_of_perm {program : List SymInstr} {results : List (Nat × PackResult)}
    (h : results.Perm (positioned program)) : byPosition results = positioned program := by
  have total : Std.Total (fun a b : Nat × PackResult => a.1 ≤ b.1) := ⟨fun a b => Nat.le_total a.1 b.1⟩
  have trans : IsTrans (Nat × PackResult) (fun a b => a.1 ≤ b.1) := ⟨fun _ _ _ => Nat.le_trans⟩
  have distinct : ((positioned program).map Prod.fst).Nodup := by
    rw [map_fst_positioned]
    exact List.nodup_range
  have inOrder : (positioned program).Pairwise (fun a b => a.1 ≤ b.1) := by
    rw [← List.pairwise_map (f := Prod.fst), map_fst_positioned]
    exact List.pairwise_le_range
  have sorted : (byPosition results).Perm (positioned program) := by
    rw [byPosition_eq]
    exact (List.perm_insertionSort _ results).trans h
  refine List.Perm.eq_of_pairwise (fun a b ha hb hab hba => ?_) ?_ inOrder sorted
  · exact List.inj_on_of_nodup_map distinct (sorted.subset ha) hb (Nat.le_antisymm hab hba)
  · rw [byPosition_eq]
    exact List.pairwise_insertionSort _ results

/-- Concatenating the results from a position is the loop of 42_assembly.md R74. -/
theorem concatResults_zipIdx (program : List SymInstr) (i : Nat) (image : List Byte) :
    concatResults image ((program.zipIdx i).map (fun x => (x.2, assembleOne x.1))) = assembleLoop i image program := by
  induction program generalizing i image with
  | nil => rfl
  | cons x xs ih =>
    rw [List.zipIdx_cons, List.map_cons]
    simp only [concatResults, assembleLoop]
    cases assembleOne x with
    | ok bs => exact ih _ _
    | error e => rfl
    | refused => rfl

/-- Results of a program in any order collect to its assembly (42_assembly.md R82). -/
theorem collect_of_perm {program : List SymInstr} {results : List (Nat × PackResult)}
    (h : results.Perm (positioned program)) : collect results = assemble program := by
  rw [collect, byPosition_of_perm h]
  exact concatResults_zipIdx program 0 []

/-- Dealing a list by a number below `n` loses nothing and repeats nothing. -/
theorem flatMap_range_filter_perm {α : Type} (key : α → Nat) (n : Nat) (xs : List α) :
    ((List.range n).flatMap (fun l => xs.filter (fun x => decide (key x = l)))).Perm
      (xs.filter (fun x => decide (key x < n))) := by
  induction n with
  | zero => simp
  | succ n ih =>
    have below : (xs.filter (fun x => decide (key x < n + 1))).filter (fun x => decide (key x < n)) =
        xs.filter (fun x => decide (key x < n)) := by
      rw [List.filter_filter]
      refine List.filter_congr fun x _ => ?_
      rw [← Bool.decide_and, decide_eq_decide]
      omega
    have last : (xs.filter (fun x => decide (key x < n + 1))).filter (fun x => !decide (key x < n)) =
        xs.filter (fun x => decide (key x = n)) := by
      rw [List.filter_filter]
      refine List.filter_congr fun x _ => ?_
      rw [← decide_not, ← Bool.decide_and, decide_eq_decide]
      omega
    have split := List.filter_append_perm (fun x => decide (key x < n)) (xs.filter (fun x => decide (key x < n + 1)))
    rw [below, last] at split
    rw [List.range_succ, List.flatMap_append, List.flatMap_singleton]
    exact (ih.append_right _).trans split

/-- The lanes' results are the program's, in another order (42_assembly.md R82). -/
theorem laneResults_perm {p : Params} (h : 1 ≤ p.nLanes) (program : List SymInstr) :
    (laneResults p program).Perm (positioned program) := by
  have dealt := flatMap_range_filter_perm (fun r => r.1 % p.nLanes) p.nLanes (positioned program)
  rwa [List.filter_eq_self.2 fun r _ => decide_eq_true (Nat.mod_lt r.1 h)] at dealt

end Sys2Proof.Machine
end

section
/-! PROOFS of the statements that other orders of work give the same result (42_assembly.md R82, R83). -/

namespace Sys2Proof.Proofs

open Sys2Proof.Machine

/-- Settles O46: PACK cannot fail behind ENC, so the first failure is ENC's in either order. -/
theorem twoPhaseAgrees : Obligations.TwoPhaseAgrees := fun program =>
  (assembleTwoPhase_eq program).trans (packPhase_encodeAll program 0 [])

/-- Settles O47: sorting by position puts the results into program order. -/
theorem anyOrderAgrees : Obligations.AnyOrderAgrees := fun _ _ => collect_of_perm

/-- Settles O48: the lanes deliver the program's results in another order. -/
theorem lanesAgree : Obligations.LanesAgree := fun _ program h => collect_of_perm (laneResults_perm h program)

end Sys2Proof.Proofs
end

section
/-! SUPPORT. Runs: steps in sequence, the steps that take a program's instructions, and a whole schedule
(42_assembly.md R79 to R81, R83). -/

namespace Sys2Proof.Machine

/-! ### Steps in sequence -/

theorem runSteps_succ_of_next {s t : State} (h : step s = .next t) (n : Nat) : runSteps (n + 1) s = runSteps n t := by
  rw [runSteps, h]

theorem runSteps_add_of_next {m : Nat} {s t : State} (h : runSteps m s = .next t) (n : Nat) :
    runSteps (m + n) s = runSteps n t := by
  induction m generalizing s with
  | zero =>
    cases h
    rw [Nat.zero_add]
  | succ m ih =>
    cases hs : step s with
    | next u =>
      rw [runSteps_succ_of_next hs] at h
      rw [Nat.add_right_comm, runSteps_succ_of_next hs, ih h]
    | fault f => simp only [runSteps, hs] at h; cases h
    | refused r => simp only [runSteps, hs] at h; cases h

/-! ### The instructions of a program -/

section
variable {s : State} {rest : List Event}

/-- The state `n` instructions with these bytes further, with what is presented next (42_assembly.md R79). -/
def State.advanced (s : State) (bytes : List Byte) (n : Nat) (rest : List Event) : State :=
  { s with emitted := s.emitted ++ bytes, off := s.off + bytes.length, pos := s.pos + n, input := rest }

/-- A step that takes an instruction in RUN (42_assembly.md R79). -/
theorem step_of_ok {x : SymInstr} {bs : List Byte} (hs : s.status = .run) (hin : s.input = .instr x :: rest)
    (hx : assembleOne x = .ok bs) : step s = .next (s.advanced bs 1 rest) := by
  rw [step_cons s _ _ hin, present_instr]
  exact asmStep_of_ok (s := s.withInput rest) hs hx

/-- A step that takes an error in RUN (60_exceptions.md R93). -/
theorem step_of_error {x : SymInstr} {e : AsmError} (hs : s.status = .run) (hin : s.input = .instr x :: rest)
    (hx : assembleOne x = .error e) : step s = .next ((s.withInput rest).withError e) := by
  rw [step_cons s _ _ hin, present_instr]
  exact asmStep_of_error (s := s.withInput rest) hs hx

/-- Instructions that all succeed emit their bytes in order (42_assembly.md R79). -/
theorem runSteps_of_ok {program : List SymInstr} {bss : List (List Byte)}
    (hok : program.map assembleOne = bss.map PackResult.ok) (hs : s.status = .run)
    (hin : s.input = program.map Event.instr ++ rest) :
    runSteps program.length s = .next (s.advanced bss.flatten program.length rest) := by
  induction program generalizing bss s with
  | nil =>
    rw [List.map_eq_nil_iff.1 hok.symm]
    rw [List.map_nil, List.nil_append] at hin
    simp [runSteps, State.advanced, ← hin]
  | cons x xs ih =>
    obtain ⟨bs, bss, rfl, hx, hxs⟩ := List.map_eq_cons_iff.1 hok.symm
    rw [List.length_cons, runSteps_succ_of_next (step_of_ok hs hin hx.symm)]
    refine (ih (s := s.advanced bs 1 _) hxs.symm hs rfl).trans ?_
    simp [State.advanced, Nat.add_assoc, Nat.add_comm 1]

/-- In DONE and ABORTED the items of a program pass (42_assembly.md R81). -/
theorem runSteps_of_not_run {program : List SymInstr} (hs : s.status ≠ .run)
    (hin : s.input = program.map Event.instr ++ rest) : runSteps program.length s = .next (s.withInput rest) := by
  induction program generalizing s with
  | nil =>
    rw [List.map_nil, List.nil_append] at hin
    rw [← hin]
    rfl
  | cons x xs ih =>
    have hstep : step s = .next (s.withInput (xs.map Event.instr ++ rest)) := by
      rw [step_cons s _ _ hin, present_instr]
      exact asmStep_of_not_run (s := s.withInput _) _ hs
    rw [List.length_cons, runSteps_succ_of_next hstep]
    exact ih (s := s.withInput _) hs rfl

/-! ### A whole schedule -/

/-- A program that succeeds throughout, and its `end`: DONE, with its bytes emitted (42_assembly.md R80, R81). -/
theorem runSteps_schedule_of_ok {program : List SymInstr} {bss : List (List Byte)}
    (hok : program.map assembleOne = bss.map PackResult.ok) (hs : s.status = .run)
    (hin : s.input = schedule program ++ rest) :
    runSteps (program.length + 1) s = .next ((s.advanced bss.flatten program.length rest).withStatus .done) := by
  rw [schedule, List.append_assoc] at hin
  rw [runSteps_add_of_next (runSteps_of_ok hok hs hin), runSteps_succ_of_next]
  · rfl
  · rw [step_cons _ _ _ rfl, present, applyEnd_eq]
    exact congrArg _ (if_pos hs)

/-- A program with a first failing instruction, and its `end`: ABORTED, with the bytes of the instructions before it emitted
(60_exceptions.md R93). -/
theorem runSteps_schedule_of_first_error {before after : List SymInstr} {bss : List (List Byte)} {x : SymInstr} {e : AsmError}
    (hok : before.map assembleOne = bss.map PackResult.ok) (hx : assembleOne x = .error e) (hs : s.status = .run)
    (hin : s.input = schedule (before ++ x :: after) ++ rest) :
    runSteps ((before ++ x :: after).length + 1) s =
      .next ((s.advanced bss.flatten before.length rest).withError e) := by
  have hin : s.input = before.map Event.instr ++ .instr x :: (after.map Event.instr ++ .endProgram :: rest) := by
    rw [hin, schedule]
    simp
  have hlen : (before ++ x :: after).length + 1 = before.length + (after.length + 1 + 1) := by
    rw [List.length_append, List.length_cons, Nat.add_assoc]
  rw [hlen, runSteps_add_of_next (runSteps_of_ok hok hs hin),
    runSteps_succ_of_next (step_of_error (s := s.advanced _ _ _) hs rfl hx),
    runSteps_add_of_next (runSteps_of_not_run (by simp) rfl), runSteps_succ_of_next]
  · rfl
  · rw [step_cons _ _ _ rfl, present, applyEnd_eq]
    exact congrArg _ (if_neg (by simp))

end

/-! ### The result of a run (42_assembly.md R80) -/

/-- What a run's result is when the function gives this answer (42_assembly.md R80). -/
def AsmResult.toRunResult : AsmResult → Option RunResult
  | .ok image => some (.ok image)
  | .error k e => some (.error k (.error e))
  | .refused => none

/-- A run from a state with nothing assembled has the function's result, and leaves the schedule behind `end`
(42_assembly.md R80). -/
theorem runSteps_schedule_result {s : State} {program : List SymInstr} {rest : List Event} (hs : s.status = .run)
    (hpos : s.pos = 0) (hem : s.emitted = []) (hin : s.input = schedule program ++ rest) :
    ∃ t, runSteps (program.length + 1) s = .next t ∧ t.input = rest ∧ t.past = s.past ∧
      t.result = (assemble program).toRunResult := by
  obtain ⟨bss, hok⟩ | ⟨before, x, after, bss, e, rfl, hok, hx, -⟩ := all_ok_or_first_error program
  · refine ⟨_, runSteps_schedule_of_ok hok hs hin, rfl, rfl, ?_⟩
    rw [assemble_of_ok hok]
    simp [State.result, State.advanced, AsmResult.toRunResult, hem]
  · refine ⟨_, runSteps_schedule_of_first_error hok hx hs hin, rfl, rfl, ?_⟩
    rw [assemble_of_first_error after hok hx]
    simp [State.result, State.advanced, AsmResult.toRunResult, hpos]

theorem assemble_ne_refused (program : List SymInstr) : assemble program ≠ .refused := by
  obtain ⟨bss, hok⟩ | ⟨before, x, after, bss, e, rfl, hok, hx, -⟩ := all_ok_or_first_error program
  · rw [assemble_of_ok hok]
    nofun
  · rw [assemble_of_first_error after hok hx]
    nofun

theorem map_toAsmResult_toRunResult {r : AsmResult} (h : r ≠ .refused) : r.toRunResult.map toAsmResult = some r := by
  cases r with
  | ok image => rfl
  | error k e => rfl
  | refused => exact absurd rfl h

end Sys2Proof.Machine
end

section
/-! PROOFS of the statements that the sequencer's runs give what the function `assemble` gives (42_assembly.md R79, R80;
60_exceptions.md R96). -/

namespace Sys2Proof.Proofs

open Sys2Proof.Machine

/-- Settles O49: the instructions before the first failing one emit their bytes; it aborts and the rest passes, or `end`
completes. -/
theorem sequencerRefinesAssemble : Obligations.SequencerRefinesAssemble := by
  intro s program rest hs hin
  obtain ⟨bss, hok⟩ | ⟨before, x, after, bss, e, rfl, hok, hx, -⟩ := all_ok_or_first_error program
  · refine ⟨_, runSteps_schedule_of_ok hok hs hin, rfl, rfl, rfl, assemble_ne_refused _, fun image h => ?_, fun k e h => ?_⟩ <;>
      rw [assemble_of_ok hok] at h <;> cases h
    exact ⟨rfl, rfl, rfl, rfl⟩
  · refine ⟨_, runSteps_schedule_of_first_error hok hx hs hin, rfl, rfl, rfl, assemble_ne_refused _, fun image h => ?_,
      fun k e h => ?_⟩ <;> rw [assemble_of_first_error after hok hx] at h <;> cases h
    rw [startOffset_append_of_ok hok, List.take_left]
    exact ⟨rfl, rfl, rfl, rfl, _, assemble_of_ok hok, rfl⟩

/-- Settles O50. -/
theorem runResultIsAssemble : Obligations.RunResultIsAssemble := by
  intro s program rest hs hpos hem hin
  obtain ⟨t, hrun, -, -, hres⟩ := runSteps_schedule_result hs hpos hem hin
  exact ⟨t, hrun, by rw [hres, map_toAsmResult_toRunResult (assemble_ne_refused program)]⟩

/-- Settles O51: both runs have the function's result, and reset in between keeps the first run's bytes in `past`. -/
theorem repeatAfterReset : Obligations.RepeatAfterReset := by
  intro s program hs hpos hem hin
  obtain ⟨t, hfirst, htin, htpast, htres⟩ := runSteps_schedule_result hs hpos hem hin
  have hreset : step t = .next (applyReset (t.withInput (schedule program))) := step_cons t _ _ htin
  obtain ⟨u, hsecond, -, hupast, hures⟩ := runSteps_schedule_result (rest := [])
    (s := applyReset (t.withInput (schedule program))) rfl rfl rfl (List.append_nil _).symm
  refine ⟨t, u, hfirst, ?_, hures.trans htres.symm, by rw [hupast, ← htpast]; rfl⟩
  calc runSteps (2 * program.length + 3) s
    _ = runSteps (program.length + 1 + (program.length + 1 + 1)) s := by congr 1; omega
    _ = runSteps (program.length + 1 + 1) t := runSteps_add_of_next hfirst _
    _ = runSteps (program.length + 1) (applyReset (t.withInput (schedule program))) := runSteps_succ_of_next hreset _
    _ = .next u := hsecond

end Sys2Proof.Proofs
end

section
/-! SUPPORT. The name and operand ports: what is put on them is read back (10_state.md R18). -/

namespace Sys2Proof

theorem leValue_append_zeros (bs : List Byte) (m : Nat) : leValue (bs ++ List.replicate m 0) = leValue bs := by
  induction bs with
  | nil =>
    induction m with
    | zero => rfl
    | succ m ih => simpa [List.replicate_succ, leValue] using ih
  | cons b bs ih => rw [List.cons_append, leValue, ih, leValue]

/-- Bytes laid out in more bytes than they are come back with zeros behind (20_memory.md R27). -/
theorem leBytes_leValue {bs : List Byte} {n : Nat} (h : bs.length ≤ n) :
    leBytes n (leValue bs) = bs ++ List.replicate (n - bs.length) 0 := by
  have hlen : (bs ++ List.replicate (n - bs.length) (0 : Byte)).length = n := by
    rw [List.length_append, List.length_replicate, Nat.add_sub_cancel' h]
  have hbytes := Machine.serialize_leValue (bs ++ List.replicate (n - bs.length) 0)
  rwa [leValue_append_zeros, hlen, ← leBytes_eq_serialize] at hbytes

namespace Machine

/-- The characters of a name on its port (10_state.md R18). -/
theorem portBytes_nameToPort {n : Nat} {name : String} (h : name.toList.length ≤ n) :
    portBytes n (nameToPort n name) =
      name.toList.map (fun c => BitVec.ofNat 8 c.toNat) ++ List.replicate (n - name.toList.length) 0 := by
  have hfits : leValue (name.toList.map (fun c => BitVec.ofNat 8 c.toNat)) < 2 ^ (8 * n) := by
    refine (leValue_lt _).trans_le ?_
    rw [List.length_map, Nat.pow_mul]
    exact Nat.pow_le_pow_right (by decide) h
  rw [portBytes, nameToPort, BitVec.toNat_ofNat, Nat.mod_eq_of_lt hfits, leBytes_leValue (by rwa [List.length_map]),
    List.length_map]

theorem charsOfPort_zeros (m : Nat) : charsOfPort (List.replicate m 0) = some [] := by
  cases m with
  | zero => rfl
  | succ m => simp [List.replicate_succ, charsOfPort]

/-- ASCII characters other than 0x00 are read back up to the first 0x00 (10_state.md R18). -/
theorem charsOfPort_chars {cs : List Char} (h : cs.all portChar = true) (m : Nat) :
    charsOfPort (cs.map (fun c => BitVec.ofNat 8 c.toNat) ++ List.replicate m 0) = some cs := by
  induction cs with
  | nil => exact charsOfPort_zeros m
  | cons c cs ih =>
    obtain ⟨hc, hcs⟩ := Bool.and_eq_true_iff.1 (List.all_cons ▸ h)
    obtain ⟨hpos, hascii⟩ : 0 < c.toNat ∧ c.toNat < 128 := by simpa [portChar] using hc
    have hbyte : (BitVec.ofNat 8 c.toNat).toNat = c.toNat := by
      rw [BitVec.toNat_ofNat]
      omega
    have hne : BitVec.ofNat 8 c.toNat ≠ 0 := fun h0 => by
      rw [h0] at hbyte
      exact absurd hbyte.symm hpos.ne'
    rw [List.map_cons, List.cons_append, charsOfPort, if_neg hne, hbyte, if_pos hascii, ih hcs, Char.ofNat_toNat]
    rfl

/-- A name that the port can present is read back (10_state.md R18). -/
theorem portToName_nameToPort {n : Nat} {name : String} (hlen : name.toList.length ≤ n)
    (hchars : name.toList.all portChar = true) : portToName n (nameToPort n name) = some name := by
  rw [portToName, portBytes_nameToPort hlen, charsOfPort_chars hchars, Option.map_some, String.ofList_toList]

/-- An operand field that the ports can present is read back (10_state.md R18). -/
theorem fieldOfPort_ofInt {w : Nat} (hw : 0 < w) {field : Option Int} (h : fieldFits w field = true) :
    fieldOfPort field.isSome (BitVec.ofInt w (field.getD 0)) = field := by
  cases field with
  | none => rfl
  | some v =>
    obtain ⟨hlo, hhi⟩ : -(2 ^ (w - 1) : Int) ≤ v ∧ v < 2 ^ (w - 1) := by simpa [fieldFits, intFits] using h
    exact congrArg some (BitVec.toInt_ofInt_eq_self hw hlo hhi)

end Machine

end Sys2Proof
end

section
/-! SUPPORT. ENC, PACK and the core at their ports, by the answer of the block (40_encoder.md R62, 41_packer.md R73,
60_exceptions.md R85). -/

namespace Sys2Proof.Machine

section
variable {p : Params}

/-! ### ENC -/

theorem encPorts_of_ofPorts {x : EncIn p} {i : SymInstr} (h : ofPorts p x = some i) :
    encPorts p x = some (encOutOf p x (enc i)) := by
  rw [encPorts, h, Option.map_some]

/-- The IR ports carry an IR that satisfies WF_IR (10_state.md R17, R19). -/
theorem encOutOf_ok_of_wfIR (hp : p.Valid) (x : EncIn p) {ir : IR} (h : wfIR ir = true) :
    ((encOutOf p x (.ok ir)).irOpcode.toNat : Int) = ir.opcode ∧
      ((encOutOf p x (.ok ir)).irOperand.toNat : Int) = ir.operand ∧
      ((encOutOf p x (.ok ir)).irByteWidth.toNat : Int) = ir.byteWidth := by
  obtain ⟨ho0, ho, hv0, hw⟩ := (wfIR_iff ir).1 h
  obtain ⟨-, -, hbww, -⟩ := hp
  have hsize : (2 : Int) ^ 3 ≤ 2 ^ p.bww := pow_le_pow_right₀ (by decide) hbww
  exact ⟨ofInt_toNat 7 _ ho0 (by omega), ofInt_toNat 23 _ hv0 (by omega), ofInt_toNat p.bww _ (by omega) (by omega)⟩

theorem errCode_lt (e : AsmError) : errCode e < 2 ^ 3 := by
  cases e <;> simp [errCode]

/-- Every error drives `enc_ok` and its code (60_exceptions.md R85). -/
theorem encOutOf_error (x : EncIn p) (e : AsmError) :
    (encOutOf p x (.error e)).encOk = false ∧ (encOutOf p x (.error e)).errCode.toNat = errCode e := by
  have hcode : (BitVec.ofNat 3 (errCode e)).toNat = errCode e :=
    (BitVec.toNat_ofNat _ _).trans (Nat.mod_eq_of_lt (errCode_lt e))
  cases e <;> exact ⟨rfl, hcode⟩

/-- The value of a range error is the content of the field it names (40_encoder.md R53). -/
theorem selectField_of_operandOutOfRange {i : SymInstr} {v : Int} {f : Field} {n : Nat}
    (h : enc i = .error (.operandOutOfRange v f n)) : selectField f i.const i.addr = some v := by
  cases hr : opRow i.op with
  | none =>
    rw [enc_of_opRow_none i hr] at h
    cases h
  | some r =>
    rw [enc_of_opRow i r hr] at h
    obtain ⟨-, he⟩ | ⟨w, -, -, he⟩ | ⟨w, hw, -, he⟩ :=
      encodeOperand_cases r.opcode (formatOfOp r.op) i.const i.addr <;> rw [he] at h <;> cases h
    exact hw

/-- A presented operand came from a value port, so the port holds it (10_state.md R18). -/
theorem toInt_ofInt_of_ofPorts {x : EncIn p} {i : SymInstr} (h : ofPorts p x = some i) {f : Field} {v : Int}
    (hv : selectField f i.const i.addr = some v) : (BitVec.ofInt p.opw v).toInt = v := by
  have held (b : Bool) (val : BitVec p.opw) (hval : fieldOfPort b val = some v) : (BitVec.ofInt p.opw v).toInt = v := by
    unfold fieldOfPort at hval
    split at hval <;> cases hval
    rw [BitVec.ofInt_toInt]
  obtain ⟨name, -, rfl⟩ := Option.map_eq_some_iff.1 h
  cases f with
  | const => exact held _ _ hv
  | addr => exact held _ _ hv

/-! ### PACK -/

section
variable {x : PackIn p}

theorem packPorts_of_ok {bs : List Byte} (h : pack (irOfPorts p x) = .ok bs) :
    packPorts p x = some (packOkPorts p (Config.packDontCare p x) bs) := by
  simp only [packPorts, h]

theorem packPorts_of_error {e : AsmError} (h : pack (irOfPorts p x) = .error e) :
    packPorts p x = some { Config.packDontCare p x with
      packOk := false, errCode := BitVec.ofNat 3 (errCode e), errWidth := x.irByteWidth } := by
  simp only [packPorts, h]

theorem packPorts_of_refused (h : pack (irOfPorts p x) = .refused) : packPorts p x = none := by
  simp only [packPorts, h]

/-- A 4-byte IR on the ports (41_packer.md R68). -/
theorem pack_irOfPorts_load (h : x.irByteWidth.toNat = 4) :
    pack (irOfPorts p x) = .ok (loadBytes x.irOpcode x.irOperand) := by
  rw [irOfPorts, h]
  exact pack_load x.irOpcode x.irOperand

/-- A 3-byte IR on the ports whose operand has 16 bits (41_packer.md R69). -/
theorem pack_irOfPorts_short (h : x.irByteWidth.toNat = 3) (hv : x.irOperand.toNat ≤ 0xFFFF) :
    pack (irOfPorts p x) = .ok (shortBytes x.irOpcode (x.irOperand.setWidth 16)) := by
  have hoperand : (x.irOperand.setWidth 16).toNat = x.irOperand.toNat := by
    rw [BitVec.toNat_setWidth]
    omega
  rw [irOfPorts, h, ← hoperand]
  exact pack_short x.irOpcode (x.irOperand.setWidth 16)

end

/-- The byte ports carry up to four bytes (41_packer.md R73). -/
theorem take_getD_four {bs : List Byte} (h : bs.length ≤ 4) :
    [bs.getD 0 0, bs.getD 1 0, bs.getD 2 0, bs.getD 3 0].take bs.length = bs := by
  match bs with
  | [] => rfl
  | [_] => rfl
  | [_, _] => rfl
  | [_, _, _] => rfl
  | [_, _, _, _] => rfl

/-! ### The core -/

section
variable {x : EncIn p} {y : EncOut p}

theorem corePorts_of_ok {k : PackOut p} (hy : encPorts p x = some y) (hok : y.encOk = true)
    (hk : packPorts p (packInOf p y) = some k) :
    corePorts p x = some { enc := y, pack := k, errCode := k.errCode } := by
  simp only [corePorts, hy, hok, if_true, hk, Option.map_some]

theorem corePorts_of_error (hy : encPorts p x = some y) (hfail : y.encOk = false) :
    corePorts p x =
      some { enc := y, pack := { Config.packIdle p x with packOk := false }, errCode := y.errCode } := by
  simp only [corePorts, hy, hfail]
  rfl

end

end

end Sys2Proof.Machine
end

section
/-! PROOFS of the statements about the ports (10_state.md R18, R19; 40_encoder.md R62; 41_packer.md R73). -/

namespace Sys2Proof.Proofs

open Sys2Proof.Machine

/-- Settles O54: name and operand fields come back one by one. -/
theorem portsCarryRecords : Obligations.PortsCarryRecords := by
  intro p i x hp h
  obtain ⟨-, hopw, -⟩ := hp
  unfold toPorts at h
  split at h <;> cases h
  next hfits =>
  obtain ⟨⟨⟨hlen, hchars⟩, hconst⟩, haddr⟩ :
      ((i.op.toList.length ≤ p.nameBytes ∧ i.op.toList.all portChar = true) ∧ fieldFits p.opw i.const = true) ∧
        fieldFits p.opw i.addr = true := by
    simpa only [presentable, Bool.and_eq_true, decide_eq_true_eq] using hfits
  have hpos : 0 < p.opw := by omega
  simp only [ofPorts, portToName_nameToPort hlen hchars, fieldOfPort_ofInt hpos hconst, fieldOfPort_ofInt hpos haddr,
    Option.map_some]

/-- Settles O55: the ports by ENC's answer; a range error's value came from a value port, so it fits one. -/
theorem encPortsAgree : Obligations.EncPortsAgree := by
  intro p i x hp h
  refine ⟨_, encPorts_of_ofPorts h, fun ir he => ?ok, fun e he => ?error, fun name he => ?name, fun v f n he => ?range,
    fun f he => ?missing⟩ <;> rw [he]
  case ok => exact ⟨rfl, rfl, encOutOf_ok_of_wfIR hp x (enc_ok_wfIR i ir he).1⟩
  case error => exact encOutOf_error x e
  case name => rfl
  case range => exact ⟨toInt_ofInt_of_ofPorts h (selectField_of_operandOutOfRange he), rfl, rfl⟩
  case missing => rfl

/-- Settles O56: the ports by PACK's answer on the IR they present. -/
theorem packPortsAgree : Obligations.PackPortsAgree := by
  intro p x
  refine ⟨fun h3 h4 => ?size, fun hw hv => ?short, fun hw hv => ?refused, fun hw => ?load⟩
  case size =>
    have hpack := packSizeCheck (irOfPorts p x) (mt Int.ofNat.inj h3) (mt Int.ofNat.inj h4)
    exact ⟨_, packPorts_of_error hpack, rfl, rfl, rfl⟩
  case short => exact ⟨_, packPorts_of_ok (pack_irOfPorts_short hw hv), rfl, rfl, rfl, rfl, rfl⟩
  case refused =>
    refine packPorts_of_refused ((pack_eq_refused_iff _).2 ⟨.inl (by rw [irOfPorts, hw]; rfl), ?_⟩)
    rw [← Bool.not_eq_true, wfIR_iff]
    simp only [irOfPorts]
    omega
  case load => exact ⟨_, packPorts_of_ok (pack_irOfPorts_load hw), rfl, rfl, rfl, rfl⟩

/-- Settles O57: ENC's ports present ENC's IR to PACK, or PACK is not applied. -/
theorem corePortsAgree : Obligations.CorePortsAgree := by
  intro p i x hp h
  obtain ⟨y, hy, hok, herr, -⟩ := encPortsAgree p i x hp h
  obtain ⟨j, ir, -, -, henc, -, hpack, -⟩ | ⟨e, henc, -⟩ := enc_cases i
  · obtain ⟨hyok, -, hopcode, hoperand, hwidth⟩ := hok ir henc
    have hir : irOfPorts p (packInOf p y) = ir := by
      simp only [irOfPorts, packInOf, hopcode, hoperand, hwidth]
    have hone := (assembleOne_of_enc_ok henc).trans hpack
    have hlen : (encode j).length ≤ 4 := by
      rw [encode_length]
      cases formatOfOp j.op <;> decide
    refine ⟨_, corePorts_of_ok hy hyok (packPorts_of_ok (hir ▸ hpack)), fun bs hbs => ?_, fun e he => ?_⟩
    · rw [hone] at hbs
      cases hbs
      refine ⟨hyok, rfl, rfl, ?_, take_getD_four hlen⟩
      exact (BitVec.toNat_ofNat _ _).trans (Nat.mod_eq_of_lt (by omega))
    · rw [hone] at he
      cases he
  · have hone := assembleOne_of_enc_error henc
    obtain ⟨hyfail, hcode⟩ := herr e henc
    refine ⟨_, corePorts_of_error hy hyfail, fun bs hbs => ?_, fun e' he => ?_⟩
    · rw [hone] at hbs
      cases hbs
    · rw [hone] at he
      cases he
      exact ⟨hyfail, rfl, hcode⟩

end Sys2Proof.Proofs
end
